-- ==== Sys2Proof/Word.lean ====
section
/-! DEFINITION. The machine's one data width.
Every register, every memory cell and the program counter is 8 bits wide (00_scope.md R7), and every value is
unsigned (R9): a byte is read as a number with `BitVec.toNat`, never with `BitVec.toInt`. -/

namespace Sys2Proof

/-- An 8-bit value; bit 7 is the most significant (00_scope.md R7, R8). -/
abbrev Byte := BitVec 8

end Sys2Proof
end

