-- ==== Sys2Proof/Config.lean ====
section
/-! DEFINITION. What is fixed for this hardware (00_scope.md R6, R7).
The source derives these quantities from one parameter `bits`; this hardware fixes `bits` = 8 (log entry 1).
There is no free value here: 93_implementation_defined.md treats no behaviour of this hardware as "any value". -/

namespace Sys2Proof.Config

/-- The parameter `bits`, fixed at 8 (R7). -/
def bits : Nat := 8

/-- MEMSIZE = 2^bits, the number of memory cells (R6, R20). -/
def memSize : Nat := 2 ^ bits

/-- NREG = bits, the number of registers (R6, R22). -/
def numRegs : Nat := bits

/-- MAXV = 2^bits - 1, the largest value, and the largest address (R6). -/
def maxValue : Nat := 2 ^ bits - 1

/-- The stack pointer is the register with index bits - 1 (R6, R23). -/
def spIndex : Nat := bits - 1

/-- The stack pointer's reset value, which does not depend on `bits` (R6, R23). -/
def spReset : Byte := 0xF4

/-- The program counter's reset value, which is also where a fatal stop sends it (R26, R178). -/
def pcReset : Byte := 0

/-- What every memory cell holds after reset (R20, R39): so what an address that the memory list does not
list reads as (log entry 2). -/
def resetByte : Byte := 0

end Sys2Proof.Config
end

