-- ==== Sys2Proof/Machine/State.lean ====
section
/-! DEFINITION. The machine's state as plain data (10_state.md): the tuple (MEM, x[0..7], PC, FL, RUNNING, FAULT) and
the two event streams OUT and ERR; "Nothing else is state". Every reset value is stated by the spec (R39). -/

namespace Sys2Proof.Machine

/-- A register's index, 0 to 7 (R22). -/
abbrev Reg := Fin 8

/-- The four values of FL (R29, R31): an enumeration, since the spec gives the values no numeric encoding. -/
inductive FlagValue where
  /-- The reset value; no instruction writes it (R29). -/
  | unset
  /-- CMP found its operands equal. -/
  | equal
  /-- CMP found its first operand the greater, unsigned. -/
  | greater
  /-- CMP found its first operand the less, unsigned. -/
  | less
deriving DecidableEq, Repr

/-- The fault kinds of 60_exceptions.md R170: what a fatal stop latches in FAULT and reports on ERR. They are the
HARDWARE's faults. Raising one is a step like another, which answers a next state (R178): see `fatalStop`. -/
inductive FaultKind where
  /-- The opcode byte is not in the table (R171). -/
  | unknownOpcode
  /-- A push at SP = 0, or a pop that would leave SP = 256 (R172). -/
  | stackOutOfRange
  /-- Raised by nothing: kept so that the source's taxonomy is complete (R173; log entry 8). -/
  | unsupportedALUOp
  /-- `load` of more than 256 bytes (R174). -/
  | loadOverflow
  /-- An operand address, a sequential next PC or a return address exceeds 255 (R175). -/
  | pcOutOfRange
  /-- A register operand byte is 8..255 (R176). -/
  | registerOutOfRange
deriving DecidableEq, Repr

/-- The pair (kind, info) that FAULT latches and ERR reports (R33, R36). -/
structure FaultReport where
  kind : FaultKind
  info : Byte
deriving DecidableEq, Repr

/-- The memory's cells that do not hold `Config.resetByte`, as (address, byte), addresses strictly rising and below
256 (`Memory.wf` in Machine/Ops.lean; log entry 2). -/
abbrev Memory := List Host.Cell

/-- The whole state (10_state.md). -/
structure State where
  /-- MEM, 256 cells of 8 bits (R20). -/
  mem : Memory
  /-- x[0] to x[7]; x[7] is the stack pointer SP (R22, R23). -/
  regs : Vector Byte 8
  /-- PC (R26): while an instruction executes, the address of its opcode byte (R27). -/
  pc : Byte
  /-- FL (R29). -/
  fl : FlagValue
  /-- RUNNING (R32). -/
  running : Bool
  /-- FAULT, None or (kind, info) (R33). -/
  fault : Option FaultReport
  /-- OUT, the values PRN has emitted since reset, oldest first (R35). -/
  out : List Byte
  /-- ERR, the reports since reset, oldest first (R36). -/
  err : List FaultReport
deriving DecidableEq, Repr

/-- The machine right after reset (R39): memory zeroed, registers 0 but SP = 0xF4, PC = 0, FL Unset, RUNNING 1, FAULT
None, both streams empty. -/
def State.reset : State where
  mem := []
  regs := #v[0, 0, 0, 0, 0, 0, 0, Config.spReset]
  pc := Config.pcReset
  fl := .unset
  running := true
  fault := none
  out := []
  err := []

/-- Why the MODEL would stop without a next state: never, so the type has no constructor. Every failure the spec names
is a fatal stop, which has a next state (R178), and every address is a byte, so no access can miss the memory (R20,
R58). Safe: nothing is answered for the hardware that it does not do (log entry 3). -/
inductive Fault where
deriving DecidableEq, Repr

/-- Why an instruction has no meaning. -/
inductive Refusal where
  /-- Raised by an arm of `exec` whose instruction has no meaning yet; no arm raises it now. Safe. -/
  | notModelled (mnemonic : String)
deriving DecidableEq, Repr

/-- What an instruction's meaning answers. -/
abbrev Result := Host.Outcome State Fault Refusal

end Sys2Proof.Machine
end

