-- ==== Sys2Proof/Machine/Ops.lean ====
section
/-! DEFINITION. The named operations over memory, registers and the rest of the state, and taking a fault. -/

namespace Sys2Proof.Machine

/-- MEM[a]: what the list says, else the reset byte (R20, R59). -/
def Memory.read : Memory → Nat → Byte
  | [], _ => Config.resetByte
  | (k, v) :: rest, a => if k = a then v else Memory.read rest a

/-- The memory with the cell `a` not listed. -/
def Memory.erase : Memory → Nat → Memory
  | [], _ => []
  | (k, v) :: rest, a => if k = a then Memory.erase rest a else (k, v) :: Memory.erase rest a

/-- The memory with `(a, v)` listed before the first greater address. -/
def Memory.insert : Memory → Nat → Byte → Memory
  | [], a, v => [(a, v)]
  | (k, w) :: rest, a, v => if a < k then (a, v) :: (k, w) :: rest else (k, w) :: Memory.insert rest a v

/-- MEM[a] <- v (R52). Writing what an unlisted cell reads as removes the entry, so that equal memories are equal
lists. -/
def Memory.write (m : Memory) (a : Nat) (v : Byte) : Memory :=
  if v = Config.resetByte then Memory.erase m a else Memory.insert (Memory.erase m a) a v

/-- The canonical form: addresses strictly rising and below 256, no entry that holds the reset byte. -/
def Memory.wf : Memory → Bool
  | [] => true
  | (k, v) :: rest =>
    decide (k < Config.memSize) && decide (v ≠ Config.resetByte) && rest.all (fun c => decide (k < c.1)) &&
      Memory.wf rest

/-- `MemRead(a, 1)` (R52): the one address space, every address a byte (R50, R58). -/
def State.memRead (s : State) (a : Byte) : Byte :=
  Memory.read s.mem a.toNat

/-- `MemWrite(a, 1, v)` (R52). -/
def State.memWrite (s : State) (a v : Byte) : State :=
  { s with mem := Memory.write s.mem a.toNat v }

/-- The bytes at `a`, `a + 1`, … as far as address 255, `n` of them at most. -/
def State.bytesAt (s : State) : Nat → Nat → List Byte
  | _, 0 => []
  | a, n + 1 =>
    if a ≤ Config.maxValue then s.memRead (BitVec.ofNat 8 a) :: State.bytesAt s (a + 1) n else []

/-- Write bytes at `a`, `a + 1`, … as far as address 255. -/
def State.storeBytes (s : State) : Nat → List Byte → State
  | _, [] => s
  | a, b :: bs =>
    if a ≤ Config.maxValue then State.storeBytes (s.memWrite (BitVec.ofNat 8 a) b) (a + 1) bs else s

/-- The register that is the stack pointer (R23). -/
def spReg : Reg := ⟨Config.spIndex, by decide⟩

/-- x[r] (R22). No register is hardwired (R24). -/
def State.reg (s : State) (r : Reg) : Byte :=
  s.regs.get r

/-- x[r] <- v (R22, R25). -/
def State.setReg (s : State) (r : Reg) (v : Byte) : State :=
  { s with regs := s.regs.set r.val v r.isLt }

/-- SP, another name for x[7] (R23). -/
def State.sp (s : State) : Byte :=
  s.reg spReg

/-- SP <- v. -/
def State.setSp (s : State) (v : Byte) : State :=
  s.setReg spReg v

/-- pc <- t (R26). -/
def State.setPc (s : State) (t : Byte) : State :=
  { s with pc := t }

/-- FL <- f (R29). -/
def State.setFl (s : State) (f : FlagValue) : State :=
  { s with fl := f }

/-- RUNNING <- 0 (R32). -/
def State.stop (s : State) : State :=
  { s with running := false }

/-- `emit Out(v)` (R35). -/
def State.emitOut (s : State) (v : Byte) : State :=
  { s with out := s.out ++ [v] }

/-- `emit Err(kind, info)` (R36). -/
def State.emitErr (s : State) (f : FaultReport) : State :=
  { s with err := s.err ++ [f] }

/-- FAULT <- (kind, info) (R33). -/
def State.latchFault (s : State) (f : FaultReport) : State :=
  { s with fault := some f }

/-- FatalStop(kind, info), the one and only way a fault is taken (60_exceptions.md R178): RUNNING and PC cleared, the
fault latched and reported, nothing else written, nothing saved. There is no return from it (R180): no operation
stands beside it, and only the host's reset leaves the stopped state. -/
def fatalStop (f : FaultReport) (s : State) : State :=
  (((s.stop).setPc Config.pcReset).latchFault f).emitErr f

/-- `raise K(info)`: FatalStop, and the step ends (00_scope.md R10). It is a next state. -/
def raise (kind : FaultKind) (info : Byte) (s : State) : Result :=
  .next (fatalStop ⟨kind, info⟩ s)

/-- Store `v` on the stack whose pointer becomes `sp'`: SP is written, then the cell SP names (43_stack_call.md R150). -/
def State.push (s : State) (sp' v : Byte) : State :=
  (s.setSp sp').memWrite sp' v

/-- The codes of R170, which the spec gives for use only where a number is wanted. -/
def FaultKind.code : FaultKind → Nat
  | .unknownOpcode => 1
  | .stackOutOfRange => 2
  | .unsupportedALUOp => 3
  | .loadOverflow => 4
  | .pcOutOfRange => 5
  | .registerOutOfRange => 6

/-- FAULT as a number: code 0 encodes None (R170). -/
def faultCode : Option FaultReport → Nat
  | none => 0
  | some f => f.kind.code

end Sys2Proof.Machine
end

