-- ==== Sys2Proof/Machine/Operands.lean ====
section
/-! DEFINITION. The operand forms, and the checks that an instruction's rule makes before its first write
(40_control_cycle.md R120). A check either raises, which ends the step, or hands what it has formed to the rest of the
rule: so an instruction's meaning is written in the order of its pseudocode, every check before every write (R179). -/

namespace Sys2Proof.Machine

/-- The operand byte that names register `r` (30_encoding.md R89, R93). -/
def regByte (r : Reg) : Byte :=
  BitVec.ofNat 8 r.val

/-- A register operand (R89): the whole byte is the index, and 8..255 raises RegisterOutOfRange(byte). -/
def withReg (a : Byte) (s : State) (rule : Reg → Result) : Result :=
  if h : a.toNat < Config.numRegs then rule ⟨a.toNat, h⟩ else raise .registerOutOfRange a s

/-- An immediate operand (R90): the whole byte, unsigned; `& max_value` is the identity on a byte. -/
def immediate (b : Byte) : Byte :=
  b &&& BitVec.ofNat 8 Config.maxValue

/-- `Seq(k)` (40_control_cycle.md R119): PC + k, or PCOutOfRange(PC) where that exceeds 255. -/
def withSeq (k : Nat) (s : State) (rule : Byte → Result) : Result :=
  if s.pc.toNat + k > Config.maxValue then raise .pcOutOfRange s.pc s
  else rule (BitVec.ofNat 8 (s.pc.toNat + k))

/-- The stack check of a push (43_stack_call.md R151, R152): SP - 1, or StackOutOfRange(0) at SP = 0. -/
def withPushRoom (s : State) (rule : Byte → Result) : Result :=
  if s.sp = 0 then raise .stackOutOfRange s.sp s else rule (s.sp - 1)

/-- The stack check of a pop whose pointer holds `u` (43_stack_call.md R151, R153, R155): u + 1, or
StackOutOfRange(u) where that exceeds 255. -/
def withPopRoom (u : Byte) (s : State) (rule : Byte → Result) : Result :=
  if u.toNat + 1 > Config.maxValue then raise .stackOutOfRange u s else rule (u + 1)

end Sys2Proof.Machine
end

