-- ==== Sys2Proof/Machine/Alu.lean ====
section
/-! DEFINITION. The ALU, MUL and ADD (42_alu.md). -/

namespace Sys2Proof.Machine

/-- The ALU's operation select, with exactly two values (R140), so that UnsupportedALUOp cannot arise (R142). -/
inductive AluOp where
  | add
  | mul
deriving DecidableEq, Repr

/-- The ALU's output (R141): the exact result modulo 256. It has no flag, carry or overflow output (R140). -/
def alu : AluOp → Byte → Byte → Byte
  | .add, u, v => BitVec.ofNat 8 ((u.toNat + v.toNat) % Config.memSize)
  | .mul, u, v => BitVec.ofNat 8 ((u.toNat * v.toNat) % Config.memSize)

/-- What MUL and ADD share (R143, R144): x[a] <- alu(x[a], x[b]), both read before the write. -/
def aluRule (op : AluOp) (a b : Byte) (s : State) : Result :=
  withReg a s fun d =>
  withReg b s fun r =>
  withSeq 3 s fun t =>
  .next ((s.setReg d (alu op (s.reg d) (s.reg r))).setPc t)

/-- MUL d, s (R143). -/
def execMul (a b : Byte) (s : State) : Result :=
  aluRule .mul a b s

/-- ADD d, s (R144). -/
def execAdd (a b : Byte) (s : State) : Result :=
  aluRule .add a b s

end Sys2Proof.Machine
end

