-- ==== Sys2Proof/Machine/Flags.lean ====
section
/-! DEFINITION. The condition-flag logic (44_compare_jump.md R160): an unsigned 8-bit comparator, and the one test that
the conditional jumps make. No other instruction computes a flag (10_state.md R30). -/

namespace Sys2Proof.Machine

/-- What CMP stores (R161): exactly one of Equal, Greater, Less, never Unset; Greater means the first operand is the
greater, as unsigned numbers (R9). -/
def compareFlag (u v : Byte) : FlagValue :=
  if u = v then .equal else if u.toNat > v.toNat then .greater else .less

/-- The test of JEQ and JNE (R160): Unset, Greater and Less all count as not Equal (R163, R165). -/
def FlagValue.isEqual : FlagValue → Bool
  | .equal => true
  | .unset => false
  | .greater => false
  | .less => false

/-- The display code of R31, bits 2, 1, 0 = Less, Greater, Equal; no program can observe it. -/
def FlagValue.code : FlagValue → BitVec 3
  | .unset => 0b000
  | .equal => 0b001
  | .greater => 0b010
  | .less => 0b100

end Sys2Proof.Machine
end

