-- ==== Sys2Proof/Machine/CompareJump.lean ====
section
/-! DEFINITION. CMP, JMP, JEQ, JNE (44_compare_jump.md). A jump's target is an absolute address in a register and is
never checked (R160). -/

namespace Sys2Proof.Machine

/-- CMP ra, rb (R161): the one instruction that writes FL. -/
def execCmp (a b : Byte) (s : State) : Result :=
  withReg a s fun ra =>
  withReg b s fun rb =>
  withSeq 3 s fun t =>
  .next ((s.setFl (compareFlag (s.reg ra) (s.reg rb))).setPc t)

/-- PC <- x[r], with no sequential address formed (R162). -/
def jumpTo (r : Reg) (s : State) : Result :=
  .next (s.setPc (s.reg r))

/-- PC <- Seq(2), a conditional jump that is not taken (R163, R164). -/
def notTaken (s : State) : Result :=
  withSeq 2 s fun t =>
  .next (s.setPc t)

/-- JMP r (R162). -/
def execJmp (a : Byte) (s : State) : Result :=
  withReg a s fun r =>
  jumpTo r s

/-- JEQ r (R163): the register index is checked whether or not the jump is taken. -/
def execJeq (a : Byte) (s : State) : Result :=
  withReg a s fun r =>
  if s.fl.isEqual then jumpTo r s else notTaken s

/-- JNE r (R164). -/
def execJne (a : Byte) (s : State) : Result :=
  withReg a s fun r =>
  if s.fl.isEqual then notTaken s else jumpTo r s

end Sys2Proof.Machine
end

