-- ==== Sys2Proof/Machine/LoadPrintHalt.lean ====
section
/-! DEFINITION. LDI, PRN, HLT (41_load_print_halt.md). A meaning starts after fetch and decode (40_control_cycle.md R114
to R117): `s.pc` is the address of the opcode byte. -/

namespace Sys2Proof.Machine

/-- LDI r, imm (R130). -/
def execLdi (a b : Byte) (s : State) : Result :=
  withReg a s fun r =>
  withSeq 3 s fun t =>
  .next ((s.setReg r (immediate b)).setPc t)

/-- PRN r (R131): one element on OUT. -/
def execPrn (a : Byte) (s : State) : Result :=
  withReg a s fun r =>
  withSeq 2 s fun t =>
  .next ((s.emitOut (s.reg r)).setPc t)

/-- HLT (R132): the one instruction whose advance wraps, (PC + 1) mod 256. -/
def execHlt (s : State) : Result :=
  .next ((s.stop).setPc (BitVec.ofNat 8 ((s.pc.toNat + 1) % Config.memSize)))

end Sys2Proof.Machine
end

