-- ==== Sys2Proof/Machine/StackCall.lean ====
section
/-! DEFINITION. PUSH, POP, CALL, RET (43_stack_call.md): a full descending stack in memory, addressed by x[7]. -/

namespace Sys2Proof.Machine

/-- PUSH r (R152). x[r] is read after SP is written: PUSH R7 stores the decremented SP. -/
def execPush (a : Byte) (s : State) : Result :=
  withReg a s fun r =>
  withPushRoom s fun sp' =>
  withSeq 2 s fun t =>
  .next ((s.push sp' ((s.setSp sp').reg r)).setPc t)

/-- What x[7] holds after POP's `reg[a] = memory[SP]` (R153): the popped byte if the register is SP itself. -/
def popPointer (r : Reg) (s : State) : Byte :=
  if r = spReg then s.memRead s.sp else s.sp

/-- POP r (R153). The cell read keeps its byte; POP R7 ends with SP = popped byte + 1. -/
def execPop (a : Byte) (s : State) : Result :=
  withReg a s fun r =>
  withPopRoom (popPointer r s) s fun sp' =>
  withSeq 2 s fun t =>
  .next (((s.setReg r (s.memRead s.sp)).setSp sp').setPc t)

/-- CALL r (R154): PC + 2 is pushed, then PC <- x[r], read after the push. -/
def execCall (a : Byte) (s : State) : Result :=
  withReg a s fun r =>
  withPushRoom s fun sp' =>
  withSeq 2 s fun ret =>
  .next ((s.push sp' ret).setPc ((s.push sp' ret).reg r))

/-- RET (R155): the byte on top of the stack becomes PC. -/
def execRet (s : State) : Result :=
  withPopRoom s.sp s fun sp' =>
  .next ((s.setSp sp').setPc (s.memRead s.sp))

end Sys2Proof.Machine
end

