-- ==== Sys2Proof/Syntax.lean ====
section
/-! DEFINITION. The instruction set: the 13 rows of the opcode table (30_encoding.md R85), in its order.

An operand is kept as the BYTE that stands in memory. No operand byte takes part in selecting the instruction
(R87), and a register operand byte of 8..255 still gives an instruction, whose rule raises RegisterOutOfRange
(R89, 40_control_cycle.md R120; log entry 4). `Sys2Proof/WellFormed.lean` says which instructions name only
registers that exist. -/

namespace Sys2Proof

/-- One constructor per row of spec/opcode_table.json. An argument `a` is the byte after the opcode, `b` the byte
after that (00_scope.md R11). -/
inductive Instr where
  /-- LDI r, imm (R130): `a` names the register, `b` is the immediate. -/
  | ldi (a b : Byte)
  /-- PRN r (R131). -/
  | prn (a : Byte)
  /-- HLT (R132). -/
  | hlt
  /-- MUL d, s (R143): `a` is destination and first source, `b` the second source. -/
  | mul (a b : Byte)
  /-- ADD d, s (R144): `a` is destination and first source, `b` the second source. -/
  | add (a b : Byte)
  /-- PUSH r (R152). -/
  | push (a : Byte)
  /-- POP r (R153). -/
  | pop (a : Byte)
  /-- CALL r (R154): `a` names the register that holds the target address. -/
  | call (a : Byte)
  /-- RET (R155). -/
  | ret
  /-- CMP ra, rb (R161). -/
  | cmp (a b : Byte)
  /-- JMP r (R162): `a` names the register that holds the target address. -/
  | jmp (a : Byte)
  /-- JEQ r (R163). -/
  | jeq (a : Byte)
  /-- JNE r (R164). -/
  | jne (a : Byte)
deriving DecidableEq, Repr

end Sys2Proof
end

