-- ==== Sys2Proof/Decode.lean ====
section
/-! DEFINITION. The decoder, total on any bytes, and after it the encoder (30_encoding.md).

An instruction is one opcode byte and 0, 1 or 2 operand bytes at ascending addresses (R80, R53). The decoder
compares all eight bits of the opcode byte with the 13 values of the table (R87) and rejects by name. -/

namespace Sys2Proof

/-- The four formats (R81 to R84), each with the constructor its operand bytes are given to. -/
inductive Format where
  /-- Format Z, no operand, width 1 (R81). -/
  | z (i : Instr)
  /-- Format R, one register operand, width 2 (R82). -/
  | r (mk : Byte → Instr)
  /-- Format RR, two register operands, width 3 (R83). -/
  | rr (mk : Byte → Byte → Instr)
  /-- Format RI, one register operand and then one immediate, width 3 (R84). -/
  | ri (mk : Byte → Byte → Instr)

/-- Why some bytes are no instruction. -/
inductive DecodeError where
  /-- The first byte is not one of the 13 opcodes (R88). -/
  | unknownOpcode (op : Byte)
  /-- The bytes end before the instruction does. -/
  | missingByte
deriving DecidableEq, Repr

/-- The opcode map (R85): its 13 rows, in the table's order. -/
def opcodeTable : List (Byte × Format) :=
  [ (0b10000010, .ri .ldi),
    (0b01000111, .r .prn),
    (0b00000001, .z .hlt),
    (0b10100010, .rr .mul),
    (0b10100000, .rr .add),
    (0b01000101, .r .push),
    (0b01000110, .r .pop),
    (0b01010000, .r .call),
    (0b00010001, .z .ret),
    (0b10100111, .rr .cmp),
    (0b01010100, .r .jmp),
    (0b01010101, .r .jeq),
    (0b01010110, .r .jne) ]

/-- The table's row for an opcode byte: all eight bits are compared (R87); every other byte has none (R88). -/
def opcodeFormat (op : Byte) : Option Format :=
  opcodeTable.lookup op

/-- The operand count that bits 7:6 of an opcode byte encode (R80); it means nothing for a byte that is not in
the table (R88). -/
def operandCount (op : Byte) : Nat :=
  (op.extractLsb 7 6).toNat

/-- Take a format's operand bytes, `a` before `b` (R81 to R84), and leave the bytes after the instruction (R91). -/
def takeOperands : Format → List Byte → Except DecodeError (Instr × List Byte)
  | .z i, rest => .ok (i, rest)
  | .r mk, a :: rest => .ok (mk a, rest)
  | .r _, [] => .error .missingByte
  | .rr mk, a :: b :: rest => .ok (mk a b, rest)
  | .rr _, [_] => .error .missingByte
  | .rr _, [] => .error .missingByte
  | .ri mk, a :: b :: rest => .ok (mk a b, rest)
  | .ri _, [_] => .error .missingByte
  | .ri _, [] => .error .missingByte

/-- The instruction at the head of some bytes, and the bytes after it. The opcode is looked up before the operand
bytes are asked for (R87, 40_control_cycle.md R115). -/
def decode : List Byte → Except DecodeError (Instr × List Byte)
  | [] => .error .missingByte
  | op :: rest =>
    match opcodeFormat op with
    | none => .error (.unknownOpcode op)
    | some f => takeOperands f rest

/-- The three bytes of an instruction whose bits are the number `w` of `nbits` bits, its first byte least
significant; the bits above `nbits` are 0. Three bytes is the longest instruction (R80). -/
def tableBytes (nbits w : Nat) : List Byte :=
  let v := w % 2 ^ nbits
  [BitVec.ofNat 8 v, BitVec.ofNat 8 (v / 2 ^ 8), BitVec.ofNat 8 (v / 2 ^ 16)]

/-- What the decoder reads from an instruction numbered as spec/opcode_table.json numbers it. -/
def decodeTableWord (nbits w : Nat) : Option Instr :=
  match decode (tableBytes nbits w) with
  | .ok (i, _) => some i
  | .error _ => none

/-- The opcode byte of an instruction (R85, R93). -/
def opcodeOf : Instr → Byte
  | .ldi _ _ => 0b10000010
  | .prn _ => 0b01000111
  | .hlt => 0b00000001
  | .mul _ _ => 0b10100010
  | .add _ _ => 0b10100000
  | .push _ => 0b01000101
  | .pop _ => 0b01000110
  | .call _ => 0b01010000
  | .ret => 0b00010001
  | .cmp _ _ => 0b10100111
  | .jmp _ => 0b01010100
  | .jeq _ => 0b01010101
  | .jne _ => 0b01010110

/-- The operand bytes of an instruction, in ascending address order (R81 to R84, R93). -/
def operandBytes : Instr → List Byte
  | .ldi a b => [a, b]
  | .prn a => [a]
  | .hlt => []
  | .mul a b => [a, b]
  | .add a b => [a, b]
  | .push a => [a]
  | .pop a => [a]
  | .call a => [a]
  | .ret => []
  | .cmp a b => [a, b]
  | .jmp a => [a]
  | .jeq a => [a]
  | .jne a => [a]

/-- The bytes of an instruction (R93): its opcode byte, then its operand bytes. -/
def encode (i : Instr) : List Byte :=
  opcodeOf i :: operandBytes i

/-- An instruction's width in bytes (R80): the number of bytes it occupies. -/
def Instr.width (i : Instr) : Nat :=
  (encode i).length

end Sys2Proof
end

