-- ==== Sys2Proof/Machine/Fetch.lean ====
section
/-! DEFINITION. Fetch and decode (40_control_cycle.md R115 to R117). Fetch reads the same memory as data accesses do,
with nothing between (20_memory.md R63). -/

namespace Sys2Proof.Machine

/-- The bytes an instruction at PC can have: up to three, none beyond address 255. The decoder takes only those that
the instruction has; reads have no side effect, so the others are not observable (R117, R91; log entry 9). -/
def fetchWindow (s : State) : List Byte :=
  s.bytesAt s.pc.toNat 3

/-- The instruction at PC, or the fault the fetch raises: UnknownOpcode(op) before anything else (R115), else
PCOutOfRange(PC) where an operand byte lies beyond address 255 (R116). -/
def fetchDecode (s : State) : Except FaultReport Instr :=
  match decode (fetchWindow s) with
  | .ok (i, _) => .ok i
  | .error (.unknownOpcode op) => .error ⟨.unknownOpcode, op⟩
  | .error .missingByte => .error ⟨.pcOutOfRange, s.pc⟩

end Sys2Proof.Machine
end

