-- ==== Sys2Proof/Machine/Step.lean ====
section
/-! DEFINITION. One step (40_control_cycle.md R120): nothing when the core is stopped (R114), else fetch and decode, then
the instruction's rule. -/

namespace Sys2Proof.Machine

/-- `step()`. -/
def step (s : State) : Host.Outcome State Fault Refusal :=
  if s.running then
    match fetchDecode s with
    | .ok i => exec i s
    | .error f => .next (fatalStop f s)
  else .next s

/-- `s` with an instruction stored where step fetches its next one, at PC and up, numbered as spec/opcode_table.json
numbers it and laid out to the longest instruction's three bytes; bytes that would lie beyond address 255 have no cell.
The fetch also needs RUNNING = 1. It stands for the host's `load` (log entry 5). -/
def State.withFetchWord (s : State) (nbits w : Nat) : State :=
  { s.storeBytes s.pc.toNat (tableBytes nbits w) with running := true }

end Sys2Proof.Machine
end

