-- ==== Sys2Proof/Machine/HostOps.lean ====
section
/-! DEFINITION. The host operations beside step (40_control_cycle.md R110): `reset`, `load` and `run`. The host applies each
as a whole between steps (20_memory.md R60). -/

namespace Sys2Proof.Machine

/-- `reset`, in any state (R111, 70_reset_and_hazards.md R200): nothing survives it. -/
def hostReset (_ : State) : State :=
  State.reset

/-- `load(bytes)` (R112, R113). At most 256 bytes: they are written from address 0 up and nothing else changes. More: the
refusal is whole, and it performs FatalStop(LoadOverflow, length mod 256) unless a fault is latched already. -/
def load (bytes : List Byte) (s : State) : State :=
  if bytes.length ≤ Config.memSize then s.storeBytes 0 bytes
  else match s.fault with
    | none => fatalStop ⟨.loadOverflow, BitVec.ofNat 8 (bytes.length % Config.memSize)⟩ s
    | some _ => s

/-- `run()` (R121) as an executor runs it, under fuel: the first stopped state, or `none` for "not finished" (R123). -/
def runFuel : Nat → State → Option State
  | 0, s => if s.running then none else some s
  | n + 1, s =>
    if s.running then
      match step s with
      | .next t => runFuel n t
      | .fault _ => none
      | .refused _ => none
    else some s

/-- `run()` itself, which has no bound (R123): started in `s` it ends in `t`, the first state with RUNNING = 0. A `run`
that ends in no state diverges. -/
def RunEndsIn (s t : State) : Prop :=
  ∃ n, runFuel n s = some t

end Sys2Proof.Machine
end

