-- ==== Sys2Proof/Safety.lean ====
section
/-! DEFINITION. The terms claims are stated in: the invariant of every reachable state, how a run can end, what it is for
a step to leave something alone, and the fault table read on its own, without the instructions' meanings. -/

namespace Sys2Proof.Machine

/-- The invariant of 10_state.md R38 that the types do not already give: (e) a latched fault means stopped at PC = 0, (f)
ERR holds the latched fault and nothing else (R36); and the memory list keeps its canonical form. -/
structure StateInv (s : State) : Prop where
  memory : Memory.wf s.mem = true
  faultStopped : ∀ f, s.fault = some f → s.running = false ∧ s.pc = 0
  report : s.err = s.fault.toList

/-- What the host can do between two resets (40_control_cycle.md R110). -/
inductive HostOp where
  | step
  | load (bytes : List Byte)
deriving DecidableEq, Repr

/-- One host operation; `step` without a next state would leave the state alone (it always has one). -/
def HostOp.apply : HostOp → State → State
  | .step, s =>
    match Machine.step s with
    | .next t => t
    | .fault _ => s
    | .refused _ => s
  | .load bytes, s => Machine.load bytes s

/-- Several host operations, in order. -/
def applyAll : List HostOp → State → State
  | [], s => s
  | op :: ops, s => applyAll ops (op.apply s)

/-- A state that some sequence of host operations reaches from reset. -/
def Reachable (s : State) : Prop :=
  ∃ ops, applyAll ops State.reset = s

/-- The end of a run that a HLT made (R123). -/
def CleanHalt (s : State) : Prop :=
  s.running = false ∧ s.fault = none

/-- The end of a run that a fault made (R123). -/
def FaultStop (s : State) : Prop :=
  s.running = false ∧ s.fault ≠ none

/-- Every register but those named holds what it held. -/
def KeepsRegsBut (rs : List Reg) (s t : State) : Prop :=
  ∀ r, r ∉ rs → t.reg r = s.reg r

/-- Every cell reads as it did. -/
def KeepsMem (s t : State) : Prop :=
  ∀ x, t.memRead x = s.memRead x

/-- Every cell but the one at `a` reads as it did. -/
def KeepsMemBut (a : Byte) (s t : State) : Prop :=
  ∀ x, x ≠ a → t.memRead x = s.memRead x

/-- RUNNING, FAULT and ERR are what they were. -/
def KeepsControl (s t : State) : Prop :=
  t.running = s.running ∧ t.fault = s.fault ∧ t.err = s.err

/-- The two states differ at most in FL, and agree on whether FL is Equal. -/
def SameButFlags (s u : State) : Prop :=
  u.setFl s.fl = s ∧ (s.fl = .equal ↔ u.fl = .equal)

/-- The 13 opcode values of 30_encoding.md R85. -/
def knownOpcodes : List Byte :=
  [0x82, 0x47, 0x01, 0xA2, 0xA0, 0x45, 0x46, 0x50, 0x11, 0xA7, 0x54, 0x55, 0x56]

/-- The opcodes whose operand `a` names a register: all but HLT and RET (R176). -/
def regAOpcodes : List Byte :=
  [0x82, 0x47, 0xA2, 0xA0, 0x45, 0x46, 0x50, 0xA7, 0x54, 0x55, 0x56]

/-- The opcodes whose operand `b` names a register: MUL, ADD, CMP (R176). -/
def regBOpcodes : List Byte :=
  [0xA2, 0xA0, 0xA7]

/-- The `k` of the `Seq(k)` that the opcode at PC forms, if it forms one (40_control_cycle.md R119). -/
def seqOffset (op : Byte) (fl : FlagValue) : Option Nat :=
  if op ∈ ([0x82, 0xA2, 0xA0, 0xA7] : List Byte) then some 3
  else if op ∈ ([0x47, 0x45, 0x46, 0x50] : List Byte) then some 2
  else if op = 0x55 ∧ fl ≠ .equal then some 2
  else if op = 0x56 ∧ fl = .equal then some 2
  else none

/-- The stack fault of the opcode at PC, if it has one (60_exceptions.md R172): PUSH and CALL at SP = 0; RET, and POP of
another register, at SP = 255; POP of R7 where the popped byte is 255. -/
def stackFault (s : State) (op a : Byte) : Option FaultReport :=
  if (op = 0x45 ∨ op = 0x50) ∧ s.sp = 0 then some ⟨.stackOutOfRange, 0⟩
  else if op = 0x46 ∧ a = 7 ∧ s.memRead s.sp = 255 then some ⟨.stackOutOfRange, 255⟩
  else if op = 0x46 ∧ a ≠ 7 ∧ s.sp = 255 then some ⟨.stackOutOfRange, 255⟩
  else if op = 0x11 ∧ s.sp = 255 then some ⟨.stackOutOfRange, 255⟩
  else none

/-- The one fault a step at PC reports, the first in the order of 60_exceptions.md R177, or none. It is read from that
table, the bytes at PC and the rules it names, and calls neither the decoder nor a meaning. -/
def firstFault (s : State) : Option FaultReport :=
  let op := s.memRead s.pc
  let a := s.memRead (s.pc + 1)
  let b := s.memRead (s.pc + 2)
  if op ∉ knownOpcodes then some ⟨.unknownOpcode, op⟩
  else if s.pc.toNat + operandCount op > 255 then some ⟨.pcOutOfRange, s.pc⟩
  else if op ∈ regAOpcodes ∧ a.toNat > 7 then some ⟨.registerOutOfRange, a⟩
  else if op ∈ regBOpcodes ∧ b.toNat > 7 then some ⟨.registerOutOfRange, b⟩
  else match stackFault s op a with
    | some f => some f
    | none =>
      match seqOffset op s.fl with
      | some k => if s.pc.toNat + k > 255 then some ⟨.pcOutOfRange, s.pc⟩ else none
      | none => none

end Sys2Proof.Machine
end

