-- ==== Sys2Proof/Certificates/Slice0/Obligations.lean ====
section
/-! DEFINITION. The statements for the provers. They are about all states and operands; none is about a particular program.

A register operand is written `regByte r` for the register `r` it names; the operand bytes 8..255, which name no register, are
the subject of `RegisterOperandAboveSevenRaises`. Where a statement's docstring says "decision D<n>", the clause rests on a
choice the spec marks as its own in 92_eei_decisions.md, and the statement is 'derived'. -/

open Sys2Proof Sys2Proof.Machine

/-! ## Encoding -/

/-- Each of the 13 opcode bytes, with as many operand bytes as its format has, decodes to its instruction, `a` before `b`,
and the bytes after it are left (30_encoding.md R81 to R84). -/
def Obligations.OpcodeTableRowsDecode : Prop :=
  ∀ (a b : Byte) (rest : List Byte),
    -- format Z
    decode (0b00000001 :: rest) = .ok (.hlt, rest) ∧
    decode (0b00010001 :: rest) = .ok (.ret, rest) ∧
    -- format R
    decode (0b01000111 :: a :: rest) = .ok (.prn a, rest) ∧
    decode (0b01000101 :: a :: rest) = .ok (.push a, rest) ∧
    decode (0b01000110 :: a :: rest) = .ok (.pop a, rest) ∧
    decode (0b01010000 :: a :: rest) = .ok (.call a, rest) ∧
    decode (0b01010100 :: a :: rest) = .ok (.jmp a, rest) ∧
    decode (0b01010101 :: a :: rest) = .ok (.jeq a, rest) ∧
    decode (0b01010110 :: a :: rest) = .ok (.jne a, rest) ∧
    -- format RR
    decode (0b10100010 :: a :: b :: rest) = .ok (.mul a b, rest) ∧
    decode (0b10100000 :: a :: b :: rest) = .ok (.add a b, rest) ∧
    decode (0b10100111 :: a :: b :: rest) = .ok (.cmp a b, rest) ∧
    -- format RI
    decode (0b10000010 :: a :: b :: rest) = .ok (.ldi a b, rest)

/-- Decoding the bytes of any instruction, with every operand byte at every value and whatever bytes follow, gives the
instruction back and leaves what follows (30_encoding.md sections 1 and 2). -/
def Obligations.EncodedInstructionDecodesBack : Prop :=
  ∀ (i : Instr) (rest : List Byte), decode (encode i ++ rest) = .ok (i, rest)

/-- Bytes that decode are the encoding of what they decode to: no two encodings stand for one instruction, and no bit of an
operand is dropped (30_encoding.md sections 2 and 4). -/
def Obligations.DecodedBytesAreTheEncoding : Prop :=
  ∀ (bytes : List Byte) (i : Instr) (rest : List Byte), decode bytes = .ok (i, rest) → bytes = encode i ++ rest

/-- Whatever instructions an image is made of, once the host has loaded it each is what the core fetches at the address where
its bytes begin: `load`, memory, fetch and decode agree on order and place (40_control_cycle.md sections 2 and 3). That `load`
may be applied in any state is decision D11. -/
def Obligations.LoadedInstructionIsFetchedAtItsAddress : Prop :=
  ∀ (before after : List Instr) (i : Instr) (s : State),
    ((before ++ i :: after).flatMap encode).length ≤ 256 →
    fetchDecode ((load ((before ++ i :: after).flatMap encode) s).setPc
      (BitVec.ofNat 8 (before.flatMap encode).length)) = .ok i

/-! ## The step -/

/-- Where the bytes at PC are those of an instruction, fetch gives it; and a running core whose fetch gives an instruction does
exactly what the instruction's meaning does, nothing before it and nothing after it (40_control_cycle.md section 3). -/
def Obligations.StepRunsTheDecodedInstruction : Prop :=
  (∀ (s : State) (i : Instr), s.pc.toNat + i.width ≤ 256 →
    (∀ (k : Nat) (h : k < (encode i).length), s.memRead (BitVec.ofNat 8 (s.pc.toNat + k)) = (encode i)[k]) →
    fetchDecode s = .ok i) ∧
  (∀ (s : State) (i : Instr), s.running = true → fetchDecode s = .ok i → step s = exec i s)

/-- R115: an opcode byte outside the 13 raises UnknownOpcode with that byte, at any PC and before any other check; and no
step raises it where the byte is one of the 13. -/
def Obligations.UnknownOpcodeStopsTheCore : Prop :=
  (∀ s : State, s.running = true → s.memRead s.pc ∉ knownOpcodes →
    step s = .next (fatalStop ⟨.unknownOpcode, s.memRead s.pc⟩ s)) ∧
  (∀ (s t : State) (f : FaultReport), s.memRead s.pc ∈ knownOpcodes → step s = .next t → s.fault ≠ some f →
    t.fault = some f → f.kind ≠ .unknownOpcode)

/-- The operand range check (decision D4): a known opcode whose operand bytes, counted by its bits 7:6, would lie beyond address
255 raises PCOutOfRange(PC). -/
def Obligations.OperandBytesBeyondMemoryStopTheCore : Prop :=
  ∀ s : State, s.running = true → s.memRead s.pc ∈ knownOpcodes →
    s.pc.toNat + operandCount (s.memRead s.pc) > 255 →
    step s = .next (fatalStop ⟨.pcOutOfRange, s.pc⟩ s)

/-- A stopped core's step changes nothing (decision D10). -/
def Obligations.StoppedCoreStepsNowhere : Prop :=
  ∀ s : State, s.running = false → step s = .next s

/-- A running core's step raises exactly the fault that comes first in the priority table, read from the bytes at PC alone, and
where the table names none it raises none (decisions D3 to D7; `firstFault` in Safety.lean is that table). -/
def Obligations.StepReportsTheFirstFault : Prop :=
  (∀ (s : State) (f : FaultReport), s.running = true → firstFault s = some f → step s = .next (fatalStop f s)) ∧
  (∀ s : State, s.running = true → firstFault s = none →
    ∃ t, step s = .next t ∧ t.fault = s.fault ∧ t.err = s.err)

/-- Every step answers a next state: the model neither faults nor refuses, in any state (the failures of 60_exceptions.md are
next states; log entry 3). -/
def Obligations.StepAlwaysAnswersANextState : Prop :=
  ∀ s : State, ∃ t, step s = .next t

/-! ## Faults -/

/-- FatalStop writes RUNNING, PC, FAULT and ERR, and nothing else (decisions D7, D8). -/
def Obligations.FatalStopWritesFourThings : Prop :=
  ∀ (f : FaultReport) (s : State),
    (fatalStop f s).running = false ∧ (fatalStop f s).pc = 0 ∧ (fatalStop f s).fault = some f ∧
    (fatalStop f s).err = s.err ++ [f] ∧ KeepsRegsBut [] s (fatalStop f s) ∧ KeepsMem s (fatalStop f s) ∧
    (fatalStop f s).fl = s.fl ∧ (fatalStop f s).out = s.out

/-- A step that raises a fault has no effect but FatalStop's: no register, cell or flag is written, nothing is printed (decision
D7). A raised fault is a FAULT after the step that was not there before it. -/
def Obligations.FaultingStepIsPrecise : Prop :=
  ∀ (s t : State) (f : FaultReport), step s = .next t → s.fault ≠ some f → t.fault = some f →
    t.mem = s.mem ∧ t.regs = s.regs ∧ t.fl = s.fl ∧ t.out = s.out ∧
    t.running = false ∧ t.pc = 0 ∧ t.err = s.err ++ [f]

/-- No step raises UnsupportedALUOp, and LoadOverflow is raised by `load`, not by a step (60_exceptions.md section 1; decisions
D11, D22). -/
def Obligations.StepRaisesNoAluOrLoadFault : Prop :=
  ∀ (s t : State) (f : FaultReport), step s = .next t → s.fault ≠ some f → t.fault = some f →
    f.kind ≠ .unsupportedALUOp ∧ f.kind ≠ .loadOverflow

/-- A register operand byte of 8..255 raises RegisterOutOfRange with that byte, in all eleven instructions that have one, whatever
the flags and the stack pointer are; in MUL, ADD and CMP `a` is checked before `b` (decision D5). -/
def Obligations.RegisterOperandAboveSevenRaises : Prop :=
  (∀ (s : State) (a b : Byte), a.toNat > 7 →
    let stop : Result := .next (fatalStop ⟨.registerOutOfRange, a⟩ s)
    exec (.ldi a b) s = stop ∧ exec (.prn a) s = stop ∧ exec (.mul a b) s = stop ∧ exec (.add a b) s = stop ∧
    exec (.push a) s = stop ∧ exec (.pop a) s = stop ∧ exec (.call a) s = stop ∧ exec (.cmp a b) s = stop ∧
    exec (.jmp a) s = stop ∧ exec (.jeq a) s = stop ∧ exec (.jne a) s = stop) ∧
  (∀ (s : State) (r : Reg) (b : Byte), b.toNat > 7 →
    let stop : Result := .next (fatalStop ⟨.registerOutOfRange, b⟩ s)
    exec (.mul (regByte r) b) s = stop ∧ exec (.add (regByte r) b) s = stop ∧ exec (.cmp (regByte r) b) s = stop)

/-- The stack range check (decision D6): a push at SP = 0 and a pop at SP = 255 raise StackOutOfRange with the SP that could not be
moved, at any PC; for POP R7, whose SP first becomes the popped byte, it is the popped byte that must not be 255 (decision D13). -/
def Obligations.StackRangeCheckRaises : Prop :=
  (∀ (s : State) (r : Reg), s.sp = 0 →
    exec (.push (regByte r)) s = .next (fatalStop ⟨.stackOutOfRange, 0⟩ s) ∧
    exec (.call (regByte r)) s = .next (fatalStop ⟨.stackOutOfRange, 0⟩ s)) ∧
  (∀ (s : State) (r : Reg), r ≠ 7 → s.sp = 255 →
    exec (.pop (regByte r)) s = .next (fatalStop ⟨.stackOutOfRange, 255⟩ s)) ∧
  (∀ s : State, s.memRead s.sp = 255 →
    exec (.pop (regByte 7)) s = .next (fatalStop ⟨.stackOutOfRange, 255⟩ s)) ∧
  (∀ s : State, s.sp = 255 → exec .ret s = .next (fatalStop ⟨.stackOutOfRange, 255⟩ s))

/-- `Seq(k)` (decision D3): an instruction whose sequential next PC, or CALL's return address, would exceed 255 raises
PCOutOfRange(PC), when its operands are in range and its stack check passes; a conditional jump only when it is not taken. -/
def Obligations.SequentialAddressPastTheTopRaises : Prop :=
  (∀ (s : State) (r q : Reg) (b : Byte), s.pc.toNat + 3 > 255 →
    let stop : Result := .next (fatalStop ⟨.pcOutOfRange, s.pc⟩ s)
    exec (.ldi (regByte r) b) s = stop ∧ exec (.mul (regByte r) (regByte q)) s = stop ∧
    exec (.add (regByte r) (regByte q)) s = stop ∧ exec (.cmp (regByte r) (regByte q)) s = stop) ∧
  (∀ (s : State) (r : Reg), s.pc.toNat + 2 > 255 →
    let stop : Result := .next (fatalStop ⟨.pcOutOfRange, s.pc⟩ s)
    exec (.prn (regByte r)) s = stop ∧
    (s.sp ≠ 0 → exec (.push (regByte r)) s = stop ∧ exec (.call (regByte r)) s = stop) ∧
    ((if r = 7 then s.memRead s.sp else s.sp) ≠ 255 → exec (.pop (regByte r)) s = stop) ∧
    (s.fl ≠ .equal → exec (.jeq (regByte r)) s = stop) ∧
    (s.fl = .equal → exec (.jne (regByte r)) s = stop))

/-! ## The instructions' own effects -/

/-- LDI r, imm: the register holds the whole immediate byte; only it and PC change. -/
def Obligations.LdiLoadsTheImmediate : Prop :=
  ∀ (s : State) (r : Reg) (b : Byte), s.pc.toNat + 3 ≤ 255 →
    ∃ t, exec (.ldi (regByte r) b) s = .next t ∧
      t.reg r = b ∧ t.pc.toNat = s.pc.toNat + 3 ∧
      KeepsRegsBut [r] s t ∧ KeepsMem s t ∧ t.fl = s.fl ∧ KeepsControl s t ∧ t.out = s.out

/-- PRN r: OUT gains the register's value at its end; only it and PC change. -/
def Obligations.PrnEmitsTheRegister : Prop :=
  ∀ (s : State) (r : Reg), s.pc.toNat + 2 ≤ 255 →
    ∃ t, exec (.prn (regByte r)) s = .next t ∧
      t.out = s.out ++ [s.reg r] ∧ t.pc.toNat = s.pc.toNat + 2 ∧
      KeepsRegsBut [] s t ∧ KeepsMem s t ∧ t.fl = s.fl ∧ KeepsControl s t

/-- HLT, at any address: RUNNING is cleared, PC is (PC + 1) mod 256 (that it wraps is decision D3), nothing else changes. -/
def Obligations.HltStopsTheCore : Prop :=
  ∀ s : State,
    ∃ t, exec .hlt s = .next t ∧
      t.running = false ∧ t.pc.toNat = (s.pc.toNat + 1) % 256 ∧
      KeepsRegsBut [] s t ∧ KeepsMem s t ∧ t.fl = s.fl ∧ t.fault = s.fault ∧ t.err = s.err ∧ t.out = s.out

/-- MUL d, s: the destination holds the low byte of the product of the two old values; only it and PC change. -/
def Obligations.MulWritesTheLowByteOfTheProduct : Prop :=
  ∀ (s : State) (d r : Reg), s.pc.toNat + 3 ≤ 255 →
    ∃ t, exec (.mul (regByte d) (regByte r)) s = .next t ∧
      (t.reg d).toNat = ((s.reg d).toNat * (s.reg r).toNat) % 256 ∧ t.pc.toNat = s.pc.toNat + 3 ∧
      KeepsRegsBut [d] s t ∧ KeepsMem s t ∧ t.fl = s.fl ∧ KeepsControl s t ∧ t.out = s.out

/-- ADD d, s: the destination holds the sum of the two old values modulo 256; only it and PC change, no flag does. -/
def Obligations.AddWritesTheSumModulo256 : Prop :=
  ∀ (s : State) (d r : Reg), s.pc.toNat + 3 ≤ 255 →
    ∃ t, exec (.add (regByte d) (regByte r)) s = .next t ∧
      (t.reg d).toNat = ((s.reg d).toNat + (s.reg r).toNat) % 256 ∧ t.pc.toNat = s.pc.toNat + 3 ∧
      KeepsRegsBut [d] s t ∧ KeepsMem s t ∧ t.fl = s.fl ∧ KeepsControl s t ∧ t.out = s.out

/-- PUSH r with SP above 0: SP goes down by one, the register's value is stored at the new SP (PUSH R7 stores the new SP, decision
D13), and no other register or cell changes. -/
def Obligations.PushStoresBelowTheOldTop : Prop :=
  ∀ (s : State) (r : Reg), s.sp ≠ 0 → s.pc.toNat + 2 ≤ 255 →
    ∃ t, exec (.push (regByte r)) s = .next t ∧
      t.sp.toNat + 1 = s.sp.toNat ∧ t.memRead (s.sp - 1) = (if r = 7 then s.sp - 1 else s.reg r) ∧
      t.pc.toNat = s.pc.toNat + 2 ∧
      KeepsRegsBut [7] s t ∧ KeepsMemBut (s.sp - 1) s t ∧ t.fl = s.fl ∧ KeepsControl s t ∧ t.out = s.out

/-- POP r: the register gets the byte at SP and SP goes up by one; POP R7 ends with SP one above the popped byte (decision D13). No
other register changes, and memory, the popped cell too, is unchanged. -/
def Obligations.PopLoadsTheTop : Prop :=
  (∀ (s : State) (r : Reg), r ≠ 7 → s.sp ≠ 255 → s.pc.toNat + 2 ≤ 255 →
    ∃ t, exec (.pop (regByte r)) s = .next t ∧
      t.reg r = s.memRead s.sp ∧ t.sp.toNat = s.sp.toNat + 1 ∧ t.pc.toNat = s.pc.toNat + 2 ∧
      KeepsRegsBut [r, 7] s t ∧ KeepsMem s t ∧ t.fl = s.fl ∧ KeepsControl s t ∧ t.out = s.out) ∧
  (∀ s : State, s.memRead s.sp ≠ 255 → s.pc.toNat + 2 ≤ 255 →
    ∃ t, exec (.pop (regByte 7)) s = .next t ∧
      t.sp.toNat = (s.memRead s.sp).toNat + 1 ∧ t.pc.toNat = s.pc.toNat + 2 ∧
      KeepsRegsBut [7] s t ∧ KeepsMem s t ∧ t.fl = s.fl ∧ KeepsControl s t ∧ t.out = s.out)

/-- CALL r with SP above 0: the return address PC + 2 is stored at the new SP, one below the old, and PC becomes the register's value
(the new SP for R7, decision D13); no other register or cell changes. -/
def Obligations.CallPushesTheReturnAddress : Prop :=
  ∀ (s : State) (r : Reg), s.sp ≠ 0 → s.pc.toNat + 2 ≤ 255 →
    ∃ t, exec (.call (regByte r)) s = .next t ∧
      t.sp.toNat + 1 = s.sp.toNat ∧ (t.memRead (s.sp - 1)).toNat = s.pc.toNat + 2 ∧
      t.pc = (if r = 7 then s.sp - 1 else s.reg r) ∧
      KeepsRegsBut [7] s t ∧ KeepsMemBut (s.sp - 1) s t ∧ t.fl = s.fl ∧ KeepsControl s t ∧ t.out = s.out

/-- RET with SP below 255, at any PC: PC becomes the byte at SP, SP goes up by one, nothing else changes. -/
def Obligations.RetPopsIntoPc : Prop :=
  ∀ s : State, s.sp ≠ 255 →
    ∃ t, exec .ret s = .next t ∧
      t.pc = s.memRead s.sp ∧ t.sp.toNat = s.sp.toNat + 1 ∧
      KeepsRegsBut [7] s t ∧ KeepsMem s t ∧ t.fl = s.fl ∧ KeepsControl s t ∧ t.out = s.out

/-- CMP ra, rb: FL says how the two values compare as unsigned numbers (which way round Greater and Less stand is decision D9); only
it and PC change. -/
def Obligations.CmpSetsTheFlag : Prop :=
  ∀ (s : State) (p q : Reg), s.pc.toNat + 3 ≤ 255 →
    ∃ t, exec (.cmp (regByte p) (regByte q)) s = .next t ∧
      ((s.reg p).toNat = (s.reg q).toNat → t.fl = .equal) ∧
      ((s.reg p).toNat > (s.reg q).toNat → t.fl = .greater) ∧
      ((s.reg p).toNat < (s.reg q).toNat → t.fl = .less) ∧
      t.pc.toNat = s.pc.toNat + 3 ∧
      KeepsRegsBut [] s t ∧ KeepsMem s t ∧ KeepsControl s t ∧ t.out = s.out

/-- JMP r, at any PC: PC becomes the register's value, an absolute address; nothing else changes. -/
def Obligations.JmpGoesToTheRegister : Prop :=
  ∀ (s : State) (r : Reg),
    ∃ t, exec (.jmp (regByte r)) s = .next t ∧
      t.pc = s.reg r ∧
      KeepsRegsBut [] s t ∧ KeepsMem s t ∧ t.fl = s.fl ∧ KeepsControl s t ∧ t.out = s.out

/-- JEQ r jumps exactly when FL is Equal, else it goes on after its own two bytes; nothing but PC changes. -/
def Obligations.JeqJumpsExactlyWhenEqual : Prop :=
  ∀ (s : State) (r : Reg), (s.fl ≠ .equal → s.pc.toNat + 2 ≤ 255) →
    ∃ t, exec (.jeq (regByte r)) s = .next t ∧
      t.pc.toNat = (if s.fl = .equal then (s.reg r).toNat else s.pc.toNat + 2) ∧
      KeepsRegsBut [] s t ∧ KeepsMem s t ∧ t.fl = s.fl ∧ KeepsControl s t ∧ t.out = s.out

/-- JNE r jumps exactly when FL is not Equal, Unset included, else it goes on after its own two bytes; nothing but PC changes. -/
def Obligations.JneJumpsExactlyWhenNotEqual : Prop :=
  ∀ (s : State) (r : Reg), (s.fl = .equal → s.pc.toNat + 2 ≤ 255) →
    ∃ t, exec (.jne (regByte r)) s = .next t ∧
      t.pc.toNat = (if s.fl = .equal then s.pc.toNat + 2 else (s.reg r).toNat) ∧
      KeepsRegsBut [] s t ∧ KeepsMem s t ∧ t.fl = s.fl ∧ KeepsControl s t ∧ t.out = s.out

/-- The ALU's integer laws and the identities that 42_alu.md lists, on all bytes. -/
def Obligations.AluIntegerLaws : Prop :=
  ∀ u v : Byte,
    (alu .add u v).toNat = (u.toNat + v.toNat) % 256 ∧ (alu .mul u v).toNat = (u.toNat * v.toNat) % 256 ∧
    alu .add u 0 = u ∧ alu .add u 255 = u - 1 ∧
    alu .mul u 0 = 0 ∧ alu .mul u 1 = u ∧ alu .mul u 2 = alu .add u u ∧
    alu .mul 16 16 = 0 ∧ alu .mul 255 255 = 1

/-- What JEQ and JNE do for every value of FL, row by row; which instruction or reset sets each value (which of Greater and Less CMP
sets is decision D9); and CMP then JEQ branches always on equal and never on unequal registers, JNE the complement
(44_compare_jump.md section 3). -/
def Obligations.ConditionalJumpOutcomes : Prop :=
  (∀ (s : State) (r : Reg), s.fl = .equal →
    (∃ t, exec (.jeq (regByte r)) s = .next t ∧ t.pc = s.reg r) ∧
    (s.pc.toNat + 2 ≤ 255 → ∃ t, exec (.jne (regByte r)) s = .next t ∧ t.pc.toNat = s.pc.toNat + 2)) ∧
  (∀ (s : State) (r : Reg), s.fl = .unset ∨ s.fl = .greater ∨ s.fl = .less →
    (∃ t, exec (.jne (regByte r)) s = .next t ∧ t.pc = s.reg r) ∧
    (s.pc.toNat + 2 ≤ 255 → ∃ t, exec (.jeq (regByte r)) s = .next t ∧ t.pc.toNat = s.pc.toNat + 2)) ∧
  (State.reset.fl = .unset ∧
    (∀ s t : State, step s = .next t → t.fl = .unset → s.fl = .unset) ∧
    (∀ (bytes : List Byte) (s : State), (load bytes s).fl = s.fl)) ∧
  (∀ (s : State) (p q : Reg), s.pc.toNat + 3 ≤ 255 →
    ∃ t, exec (.cmp (regByte p) (regByte q)) s = .next t ∧
      (t.fl = .equal ↔ s.reg p = s.reg q) ∧ (t.fl = .greater ↔ (s.reg p).toNat > (s.reg q).toNat) ∧
      (t.fl = .less ↔ (s.reg p).toNat < (s.reg q).toNat)) ∧
  (∀ (s : State) (p q r : Reg), s.pc.toNat + 5 ≤ 255 →
    ∃ t u v, exec (.cmp (regByte p) (regByte q)) s = .next t ∧
      exec (.jeq (regByte r)) t = .next u ∧ exec (.jne (regByte r)) t = .next v ∧
      (s.reg p = s.reg q → u.pc = s.reg r ∧ v.pc.toNat = s.pc.toNat + 5) ∧
      (s.reg p ≠ s.reg q → u.pc.toNat = s.pc.toNat + 5 ∧ v.pc = s.reg r))

/-! ## Rules of the whole machine -/

/-- R30: no instruction but CMP, and no fault, writes FL; no instruction but JEQ and JNE reads it (with another FL the same instruction
answers the same state but for FL); and two states that differ only in FL and agree on whether it is Equal stay so for any number of
steps: no program can tell Greater, Less and Unset apart. -/
def Obligations.FlagsWrittenByCmpReadByConditionalJumps : Prop :=
  (∀ (i : Instr) (s t : State), (∀ a b, i ≠ .cmp a b) → exec i s = .next t → t.fl = s.fl) ∧
  (∀ (f : FaultReport) (s : State), (fatalStop f s).fl = s.fl) ∧
  (∀ (i : Instr) (s t : State) (f : FlagValue), (∀ a, i ≠ .jeq a) → (∀ a, i ≠ .jne a) → exec i s = .next t →
    ∃ t', exec i (s.setFl f) = .next t' ∧ t'.setFl t.fl = t) ∧
  (∀ (n : Nat) (s u s' : State), SameButFlags s u → core.run n s = .next s' →
    ∃ u', core.run n u = .next u' ∧ SameButFlags s' u')

/-- R32: RUNNING is 1 after reset; HLT and every fault clear it, and nothing else an instruction does changes it; nothing but reset sets
it; a stopped core's step and run do nothing; and no instruction reads it (with another RUNNING the same instruction answers the
same state but for RUNNING). -/
def Obligations.RunningClearedByHltAndFaults : Prop :=
  ((∀ s : State, (hostReset s).running = true) ∧
    (∀ s t : State, step s = .next t → t.running = true → s.running = true) ∧
    (∀ (bytes : List Byte) (s : State), (load bytes s).running = true → s.running = true)) ∧
  ((∀ s : State, ∃ t, exec .hlt s = .next t ∧ t.running = false) ∧
    (∀ (f : FaultReport) (s : State), (fatalStop f s).running = false) ∧
    (∀ (i : Instr) (s t : State), i ≠ .hlt → exec i s = .next t →
      t.running = s.running ∨ ∃ f, t = fatalStop f s)) ∧
  (∀ s : State, s.running = false → step s = .next s ∧ RunEndsIn s s ∧ ∀ t, RunEndsIn s t → t = s) ∧
  (∀ (i : Instr) (s t : State) (b : Bool), exec i s = .next t →
    ∃ t', exec i { s with running := b } = .next t' ∧ { t' with running := t.running } = t)

/-- R21: a step writes no cell but the one below SP, and that only for PUSH and CALL; `load` writes no cell beyond its bytes; and
apart from the fetch no instruction but POP and RET reads memory (with another memory the same instruction answers the same state
but for memory). -/
def Obligations.MemoryTouchedByTheStackInstructionsOnly : Prop :=
  (∀ (s t : State) (x : Byte), step s = .next t → t.memRead x ≠ s.memRead x →
    x = s.sp - 1 ∧ ∃ r : Reg, fetchDecode s = .ok (.push (regByte r)) ∨ fetchDecode s = .ok (.call (regByte r))) ∧
  (∀ (i : Instr) (s t : State), (∀ a, i ≠ .push a) → (∀ a, i ≠ .call a) → exec i s = .next t → KeepsMem s t) ∧
  (∀ (bytes : List Byte) (s : State) (x : Byte), bytes.length ≤ x.toNat →
    (load bytes s).memRead x = s.memRead x) ∧
  (∀ (i : Instr) (s t : State) (m : Memory), (∀ a, i ≠ .pop a) → i ≠ .ret → exec i s = .next t →
    ∃ t', exec i { s with mem := m } = .next t' ∧ { t' with mem := t.mem } = t)

/-- OUT only grows, by one value at its end, and only where the step runs a PRN of a register that holds the value (10_state.md section
6; decision D12). -/
def Obligations.OutGrowsByPrnOnly : Prop :=
  ∀ s t : State, step s = .next t →
    t.out = s.out ∨ ∃ r : Reg, fetchDecode s = .ok (.prn (regByte r)) ∧ t.out = s.out ++ [s.reg r]

/-- PUSH then POP of the same register, R7 included, gives every register and SP what they held (43_stack_call.md section 2). -/
def Obligations.PushThenPopRestores : Prop :=
  ∀ (s : State) (r : Reg), s.sp ≠ 0 → s.pc.toNat + 4 ≤ 255 →
    ∃ t u, exec (.push (regByte r)) s = .next t ∧ exec (.pop (regByte r)) t = .next u ∧
      KeepsRegsBut [] s u ∧ u.pc.toNat = s.pc.toNat + 4

/-- A RET executed in any state whose SP, and the byte there, are as a CALL left them returns to the call's address + 2 with the caller's
SP (43_stack_call.md section 3). -/
def Obligations.CallThenRetReturns : Prop :=
  ∀ (s : State) (r : Reg), s.sp ≠ 0 → s.pc.toNat + 2 ≤ 255 →
    ∃ t, exec (.call (regByte r)) s = .next t ∧
      ∀ u : State, u.sp = t.sp → u.memRead u.sp = t.memRead t.sp →
        ∃ v, exec .ret u = .next v ∧ v.pc.toNat = s.pc.toNat + 2 ∧ v.sp = s.sp

/-- A byte pushed onto the address after the PUSH is the very next opcode fetched, no fence needed; where it is HLT's, the next step is
that HLT (20_memory.md section 4; decision D14). -/
def Obligations.PushedByteIsFetchedNext : Prop :=
  ∀ (s : State) (r : Reg), s.sp.toNat = s.pc.toNat + 3 →
    ∃ t, exec (.push (regByte r)) s = .next t ∧
      t.memRead t.pc = (if r = 7 then s.sp - 1 else s.reg r) ∧
      (s.running = true → r ≠ 7 → s.reg r = 0x01 → step t = exec .hlt t)

/-! ## Reset, load and run -/

/-- Every cell 0, every register 0 but SP = 0xF4, PC 0, FL Unset, RUNNING 1, FAULT None, OUT and ERR empty (10_state.md section 9; FAULT,
OUT and ERR are the spec's own state, decisions D8 and D12); the host's reset gives this state from any state (decision D21). -/
def Obligations.ResetValues : Prop :=
  (∀ x : Byte, State.reset.memRead x = 0) ∧
  (∀ r : Reg, State.reset.reg r = if r = 7 then 0xF4 else 0) ∧
  State.reset.pc = 0 ∧ State.reset.fl = .unset ∧ State.reset.running = true ∧ State.reset.fault = none ∧
  State.reset.out = [] ∧ State.reset.err = [] ∧
  ∀ s : State, hostReset s = State.reset

/-- `load` of at most 256 bytes (decision D11): cell i holds byte i, the cells beyond keep their values, no other state changes. -/
def Obligations.LoadWritesTheImage : Prop :=
  ∀ (bytes : List Byte) (s : State), bytes.length ≤ 256 →
    (∀ (k : Nat) (h : k < bytes.length), (load bytes s).memRead (BitVec.ofNat 8 k) = bytes[k]) ∧
    (∀ x : Byte, bytes.length ≤ x.toNat → (load bytes s).memRead x = s.memRead x) ∧
    KeepsRegsBut [] s (load bytes s) ∧ (load bytes s).pc = s.pc ∧ (load bytes s).fl = s.fl ∧
    KeepsControl s (load bytes s) ∧ (load bytes s).out = s.out

/-- `load` of more than 256 bytes (decision D11) is refused whole: FatalStop(LoadOverflow, length mod 256), or nothing at all where a
fault is latched already. -/
def Obligations.OverlongLoadIsRefusedWhole : Prop :=
  ∀ (bytes : List Byte) (s : State), bytes.length > 256 →
    (s.fault = none →
      load bytes s = fatalStop ⟨.loadOverflow, BitVec.ofNat 8 (bytes.length % 256)⟩ s) ∧
    (s.fault ≠ none → load bytes s = s)

/-- R122: `run()` on a stopped core ends at once with the state it was given, whatever the fuel; so it does after a HLT, and after
any fault. -/
def Obligations.RunOnAStoppedCoreIsANoOp : Prop :=
  (∀ (n : Nat) (s : State), s.running = false → runFuel n s = some s) ∧
  (∀ (n : Nat) (s : State), ∃ t, exec .hlt s = .next t ∧ runFuel n t = some t) ∧
  (∀ (n : Nat) (s : State) (f : FaultReport), runFuel n (fatalStop f s) = some (fatalStop f s))

/-- A run that ends in a new state ends by a step from a running state it reached: that step ran a HLT and left FAULT alone, or was a
fatal stop (40_control_cycle.md section 4). -/
def Obligations.RunEndsByHltOrFatalStop : Prop :=
  ∀ s t : State, RunEndsIn s t →
    t.running = false ∧
    (s.running = true →
      ∃ (n : Nat) (u : State), core.run n s = .next u ∧ u.running = true ∧ step u = .next t ∧
        ((fetchDecode u = .ok .hlt ∧ t.fault = u.fault) ∨ ∃ f, t = fatalStop f u))

/-- A run ends in at most one state, however much fuel an executor gives it (decision D18). -/
def Obligations.RunEndIsUnique : Prop :=
  ∀ s t t' : State, RunEndsIn s t → RunEndsIn s t' → t = t'

/-- A JMP to its own address makes `run()` diverge: no fuel is enough (40_control_cycle.md section 4; decision D18). -/
def Obligations.JumpToItselfNeverEnds : Prop :=
  ∀ (s : State) (r : Reg), s.running = true → s.pc.toNat + 1 ≤ 255 → s.memRead s.pc = 0x54 →
    s.memRead (s.pc + 1) = regByte r → s.reg r = s.pc →
    (∀ n, runFuel n s = none) ∧ ¬ ∃ t, RunEndsIn s t

/-! ## Invariants -/

/-- The invariant holds after reset (10_state.md section 8; the canonical form of memory is the model's choice, log entry 2). -/
def Obligations.ResetMeetsTheInvariant : Prop :=
  StateInv State.reset

/-- From every state that meets the invariant, a step leads to one that meets it: memory stays canonical, a latched fault means
stopped at PC 0, ERR holds the latched fault and nothing else (10_state.md section 8; decision D8; the canonical form is the model's
choice, log entry 2). -/
def Obligations.StepKeepsTheInvariant : Prop :=
  ∀ s t : State, StateInv s → step s = .next t → StateInv t

/-- `load` keeps the invariant, the refused load too (decision D11; the canonical form is the model's choice, log entry 2). -/
def Obligations.LoadKeepsTheInvariant : Prop :=
  ∀ (bytes : List Byte) (s : State), StateInv s → StateInv (load bytes s)

/-- Every state that any sequence of steps and loads reaches from reset meets the invariant, ERR has at most one element, and a fault
stop is told from a clean halt by FAULT (10_state.md section 8; decision D8; the canonical form is the model's choice, log entry 2). -/
def Obligations.ReachableStatesMeetTheInvariant : Prop :=
  ∀ s : State, Reachable s →
    StateInv s ∧ s.err.length ≤ 1 ∧ (s.err ≠ [] ↔ s.fault ≠ none) ∧
    (s.running = false → CleanHalt s ∨ FaultStop s) ∧ (FaultStop s → s.pc = 0)

/-- There is no way back from a fault but reset: whatever steps and loads follow, FAULT and ERR keep the one fault, the core stays stopped
at PC 0, and registers, FL and OUT keep their values (60_exceptions.md section 4; decision D8). -/
def Obligations.LatchedFaultIsFinal : Prop :=
  ∀ (ops : List HostOp) (s : State) (f : FaultReport), StateInv s → s.fault = some f →
    (applyAll ops s).fault = some f ∧ (applyAll ops s).err = [f] ∧ (applyAll ops s).running = false ∧
    (applyAll ops s).pc = 0 ∧ (applyAll ops s).regs = s.regs ∧ (applyAll ops s).fl = s.fl ∧
    (applyAll ops s).out = s.out
end

