-- ==== Sys2Proof/Laws/Decode.lean ====
section
/-! SUPPORT. The opcode map: its 13 values differ, and what the look-up answers for each. -/

namespace Sys2Proof

/-- No two rows of the table have the same opcode (R87). -/
theorem opcodeTable_pairwise : (opcodeTable.map Prod.fst).Pairwise (· ≠ ·) := by
  decide

/-- The format a row of the table has for an instruction's opcode, with its constructor. -/
def formatOf : Instr → Format
  | .ldi _ _ => .ri .ldi
  | .prn _ => .r .prn
  | .hlt => .z .hlt
  | .mul _ _ => .rr .mul
  | .add _ _ => .rr .add
  | .push _ => .r .push
  | .pop _ => .r .pop
  | .call _ => .r .call
  | .ret => .z .ret
  | .cmp _ _ => .rr .cmp
  | .jmp _ => .r .jmp
  | .jeq _ => .r .jeq
  | .jne _ => .r .jne

theorem opcodeFormat_opcodeOf (i : Instr) : opcodeFormat (opcodeOf i) = some (formatOf i) := by
  cases i <;> rfl

/-- A byte with a row is one of the table's opcodes, with the row's format. -/
theorem mem_of_opcodeFormat {op : Byte} {f : Format} (h : opcodeFormat op = some f) : (op, f) ∈ opcodeTable := by
  obtain ⟨l₁, l₂, hl, -⟩ := List.lookup_eq_some_iff.mp h
  simp [hl]

end Sys2Proof
end

