-- ==== Sys2Proof/Laws/State.lean ====
section
/-! SUPPORT. What each update of the state leaves in each field, and what the observers `reg`, `sp` and `memRead` see after
it: one lemma each, so that no later proof unfolds a record update. -/

namespace Sys2Proof.Machine

variable (s : State)

@[simp] theorem State.memWrite_mem (a v : Byte) : (s.memWrite a v).mem = Memory.write s.mem a.toNat v := rfl
@[simp] theorem State.memWrite_regs (a v : Byte) : (s.memWrite a v).regs = s.regs := rfl
@[simp] theorem State.memWrite_pc (a v : Byte) : (s.memWrite a v).pc = s.pc := rfl
@[simp] theorem State.memWrite_fl (a v : Byte) : (s.memWrite a v).fl = s.fl := rfl
@[simp] theorem State.memWrite_running (a v : Byte) : (s.memWrite a v).running = s.running := rfl
@[simp] theorem State.memWrite_fault (a v : Byte) : (s.memWrite a v).fault = s.fault := rfl
@[simp] theorem State.memWrite_out (a v : Byte) : (s.memWrite a v).out = s.out := rfl
@[simp] theorem State.memWrite_err (a v : Byte) : (s.memWrite a v).err = s.err := rfl
@[simp] theorem State.reg_memWrite (a v : Byte) (q : Reg) : (s.memWrite a v).reg q = s.reg q := rfl
@[simp] theorem State.sp_memWrite (a v : Byte) : (s.memWrite a v).sp = s.sp := rfl

@[simp] theorem State.setReg_mem (r : Reg) (v : Byte) : (s.setReg r v).mem = s.mem := rfl
@[simp] theorem State.setReg_regs (r : Reg) (v : Byte) : (s.setReg r v).regs = s.regs.set r.val v r.isLt := rfl
@[simp] theorem State.setReg_pc (r : Reg) (v : Byte) : (s.setReg r v).pc = s.pc := rfl
@[simp] theorem State.setReg_fl (r : Reg) (v : Byte) : (s.setReg r v).fl = s.fl := rfl
@[simp] theorem State.setReg_running (r : Reg) (v : Byte) : (s.setReg r v).running = s.running := rfl
@[simp] theorem State.setReg_fault (r : Reg) (v : Byte) : (s.setReg r v).fault = s.fault := rfl
@[simp] theorem State.setReg_out (r : Reg) (v : Byte) : (s.setReg r v).out = s.out := rfl
@[simp] theorem State.setReg_err (r : Reg) (v : Byte) : (s.setReg r v).err = s.err := rfl
@[simp] theorem State.memRead_setReg (r : Reg) (v : Byte) (x : Byte) : (s.setReg r v).memRead x = s.memRead x := rfl

@[simp] theorem State.setPc_mem (t : Byte) : (s.setPc t).mem = s.mem := rfl
@[simp] theorem State.setPc_regs (t : Byte) : (s.setPc t).regs = s.regs := rfl
@[simp] theorem State.setPc_pc (t : Byte) : (s.setPc t).pc = t := rfl
@[simp] theorem State.setPc_fl (t : Byte) : (s.setPc t).fl = s.fl := rfl
@[simp] theorem State.setPc_running (t : Byte) : (s.setPc t).running = s.running := rfl
@[simp] theorem State.setPc_fault (t : Byte) : (s.setPc t).fault = s.fault := rfl
@[simp] theorem State.setPc_out (t : Byte) : (s.setPc t).out = s.out := rfl
@[simp] theorem State.setPc_err (t : Byte) : (s.setPc t).err = s.err := rfl
@[simp] theorem State.reg_setPc (t : Byte) (q : Reg) : (s.setPc t).reg q = s.reg q := rfl
@[simp] theorem State.sp_setPc (t : Byte) : (s.setPc t).sp = s.sp := rfl
@[simp] theorem State.memRead_setPc (t : Byte) (x : Byte) : (s.setPc t).memRead x = s.memRead x := rfl

@[simp] theorem State.setFl_mem (f : FlagValue) : (s.setFl f).mem = s.mem := rfl
@[simp] theorem State.setFl_regs (f : FlagValue) : (s.setFl f).regs = s.regs := rfl
@[simp] theorem State.setFl_pc (f : FlagValue) : (s.setFl f).pc = s.pc := rfl
@[simp] theorem State.setFl_fl (f : FlagValue) : (s.setFl f).fl = f := rfl
@[simp] theorem State.setFl_running (f : FlagValue) : (s.setFl f).running = s.running := rfl
@[simp] theorem State.setFl_fault (f : FlagValue) : (s.setFl f).fault = s.fault := rfl
@[simp] theorem State.setFl_out (f : FlagValue) : (s.setFl f).out = s.out := rfl
@[simp] theorem State.setFl_err (f : FlagValue) : (s.setFl f).err = s.err := rfl
@[simp] theorem State.reg_setFl (f : FlagValue) (q : Reg) : (s.setFl f).reg q = s.reg q := rfl
@[simp] theorem State.sp_setFl (f : FlagValue) : (s.setFl f).sp = s.sp := rfl
@[simp] theorem State.memRead_setFl (f : FlagValue) (x : Byte) : (s.setFl f).memRead x = s.memRead x := rfl

@[simp] theorem State.stop_mem : (s.stop).mem = s.mem := rfl
@[simp] theorem State.stop_regs : (s.stop).regs = s.regs := rfl
@[simp] theorem State.stop_pc : (s.stop).pc = s.pc := rfl
@[simp] theorem State.stop_fl : (s.stop).fl = s.fl := rfl
@[simp] theorem State.stop_running : (s.stop).running = false := rfl
@[simp] theorem State.stop_fault : (s.stop).fault = s.fault := rfl
@[simp] theorem State.stop_out : (s.stop).out = s.out := rfl
@[simp] theorem State.stop_err : (s.stop).err = s.err := rfl
@[simp] theorem State.reg_stop (q : Reg) : (s.stop).reg q = s.reg q := rfl
@[simp] theorem State.sp_stop : (s.stop).sp = s.sp := rfl
@[simp] theorem State.memRead_stop (x : Byte) : (s.stop).memRead x = s.memRead x := rfl

@[simp] theorem State.emitOut_mem (v : Byte) : (s.emitOut v).mem = s.mem := rfl
@[simp] theorem State.emitOut_regs (v : Byte) : (s.emitOut v).regs = s.regs := rfl
@[simp] theorem State.emitOut_pc (v : Byte) : (s.emitOut v).pc = s.pc := rfl
@[simp] theorem State.emitOut_fl (v : Byte) : (s.emitOut v).fl = s.fl := rfl
@[simp] theorem State.emitOut_running (v : Byte) : (s.emitOut v).running = s.running := rfl
@[simp] theorem State.emitOut_fault (v : Byte) : (s.emitOut v).fault = s.fault := rfl
@[simp] theorem State.emitOut_out (v : Byte) : (s.emitOut v).out = s.out ++ [v] := rfl
@[simp] theorem State.emitOut_err (v : Byte) : (s.emitOut v).err = s.err := rfl
@[simp] theorem State.reg_emitOut (v : Byte) (q : Reg) : (s.emitOut v).reg q = s.reg q := rfl
@[simp] theorem State.sp_emitOut (v : Byte) : (s.emitOut v).sp = s.sp := rfl
@[simp] theorem State.memRead_emitOut (v : Byte) (x : Byte) : (s.emitOut v).memRead x = s.memRead x := rfl

@[simp] theorem State.emitErr_mem (f : FaultReport) : (s.emitErr f).mem = s.mem := rfl
@[simp] theorem State.emitErr_regs (f : FaultReport) : (s.emitErr f).regs = s.regs := rfl
@[simp] theorem State.emitErr_pc (f : FaultReport) : (s.emitErr f).pc = s.pc := rfl
@[simp] theorem State.emitErr_fl (f : FaultReport) : (s.emitErr f).fl = s.fl := rfl
@[simp] theorem State.emitErr_running (f : FaultReport) : (s.emitErr f).running = s.running := rfl
@[simp] theorem State.emitErr_fault (f : FaultReport) : (s.emitErr f).fault = s.fault := rfl
@[simp] theorem State.emitErr_out (f : FaultReport) : (s.emitErr f).out = s.out := rfl
@[simp] theorem State.emitErr_err (f : FaultReport) : (s.emitErr f).err = s.err ++ [f] := rfl
@[simp] theorem State.reg_emitErr (f : FaultReport) (q : Reg) : (s.emitErr f).reg q = s.reg q := rfl
@[simp] theorem State.sp_emitErr (f : FaultReport) : (s.emitErr f).sp = s.sp := rfl
@[simp] theorem State.memRead_emitErr (f : FaultReport) (x : Byte) : (s.emitErr f).memRead x = s.memRead x := rfl

@[simp] theorem State.latchFault_mem (f : FaultReport) : (s.latchFault f).mem = s.mem := rfl
@[simp] theorem State.latchFault_regs (f : FaultReport) : (s.latchFault f).regs = s.regs := rfl
@[simp] theorem State.latchFault_pc (f : FaultReport) : (s.latchFault f).pc = s.pc := rfl
@[simp] theorem State.latchFault_fl (f : FaultReport) : (s.latchFault f).fl = s.fl := rfl
@[simp] theorem State.latchFault_running (f : FaultReport) : (s.latchFault f).running = s.running := rfl
@[simp] theorem State.latchFault_fault (f : FaultReport) : (s.latchFault f).fault = some f := rfl
@[simp] theorem State.latchFault_out (f : FaultReport) : (s.latchFault f).out = s.out := rfl
@[simp] theorem State.latchFault_err (f : FaultReport) : (s.latchFault f).err = s.err := rfl
@[simp] theorem State.reg_latchFault (f : FaultReport) (q : Reg) : (s.latchFault f).reg q = s.reg q := rfl
@[simp] theorem State.sp_latchFault (f : FaultReport) : (s.latchFault f).sp = s.sp := rfl
@[simp] theorem State.memRead_latchFault (f : FaultReport) (x : Byte) : (s.latchFault f).memRead x = s.memRead x := rfl

/-- A register write is seen at that register and nowhere else. -/
theorem State.reg_setReg (r : Reg) (v : Byte) (q : Reg) :
    (s.setReg r v).reg q = if q = r then v else s.reg q := by
  simp only [State.reg, State.setReg, Vector.get_eq_getElem, Vector.getElem_set, Fin.ext_iff, eq_comm]

@[simp] theorem State.reg_setReg_self (r : Reg) (v : Byte) : (s.setReg r v).reg r = v := by
  simp [State.reg_setReg]

theorem State.reg_setReg_of_ne {r q : Reg} (h : q ≠ r) (v : Byte) : (s.setReg r v).reg q = s.reg q := by
  simp [State.reg_setReg, h]

theorem State.reg_setSp (v : Byte) (q : Reg) : (s.setSp v).reg q = if q = spReg then v else s.reg q :=
  s.reg_setReg spReg v q

@[simp] theorem State.sp_setSp (v : Byte) : (s.setSp v).sp = v :=
  s.reg_setReg_self spReg v

theorem State.reg_spReg : s.reg spReg = s.sp := rfl

@[simp] theorem State.setSp_mem (v : Byte) : (s.setSp v).mem = s.mem := rfl
@[simp] theorem State.setSp_pc (v : Byte) : (s.setSp v).pc = s.pc := rfl
@[simp] theorem State.setSp_fl (v : Byte) : (s.setSp v).fl = s.fl := rfl
@[simp] theorem State.setSp_running (v : Byte) : (s.setSp v).running = s.running := rfl
@[simp] theorem State.setSp_fault (v : Byte) : (s.setSp v).fault = s.fault := rfl
@[simp] theorem State.setSp_out (v : Byte) : (s.setSp v).out = s.out := rfl
@[simp] theorem State.setSp_err (v : Byte) : (s.setSp v).err = s.err := rfl
@[simp] theorem State.memRead_setSp (v x : Byte) : (s.setSp v).memRead x = s.memRead x := rfl

@[simp] theorem State.push_pc (p v : Byte) : (s.push p v).pc = s.pc := rfl
@[simp] theorem State.push_fl (p v : Byte) : (s.push p v).fl = s.fl := rfl
@[simp] theorem State.push_running (p v : Byte) : (s.push p v).running = s.running := rfl
@[simp] theorem State.push_fault (p v : Byte) : (s.push p v).fault = s.fault := rfl
@[simp] theorem State.push_out (p v : Byte) : (s.push p v).out = s.out := rfl
@[simp] theorem State.push_err (p v : Byte) : (s.push p v).err = s.err := rfl
@[simp] theorem State.push_mem (p v : Byte) : (s.push p v).mem = Memory.write s.mem p.toNat v := rfl
theorem State.reg_push (p v : Byte) (q : Reg) : (s.push p v).reg q = if q = spReg then p else s.reg q :=
  s.reg_setReg spReg p q
@[simp] theorem State.sp_push (p v : Byte) : (s.push p v).sp = p :=
  s.reg_setReg_self spReg p

@[simp] theorem fatalStop_mem (f : FaultReport) : (fatalStop f s).mem = s.mem := rfl
@[simp] theorem fatalStop_regs (f : FaultReport) : (fatalStop f s).regs = s.regs := rfl
@[simp] theorem fatalStop_pc (f : FaultReport) : (fatalStop f s).pc = 0 := rfl
@[simp] theorem fatalStop_fl (f : FaultReport) : (fatalStop f s).fl = s.fl := rfl
@[simp] theorem fatalStop_running (f : FaultReport) : (fatalStop f s).running = false := rfl
@[simp] theorem fatalStop_fault (f : FaultReport) : (fatalStop f s).fault = some f := rfl
@[simp] theorem fatalStop_out (f : FaultReport) : (fatalStop f s).out = s.out := rfl
@[simp] theorem fatalStop_err (f : FaultReport) : (fatalStop f s).err = s.err ++ [f] := rfl
@[simp] theorem reg_fatalStop (f : FaultReport) (q : Reg) : (fatalStop f s).reg q = s.reg q := rfl
@[simp] theorem sp_fatalStop (f : FaultReport) : (fatalStop f s).sp = s.sp := rfl
@[simp] theorem memRead_fatalStop (f : FaultReport) (x : Byte) : (fatalStop f s).memRead x = s.memRead x := rfl

/-- Two states with the same fields are the same state. -/
theorem State.ext_fields {s t : State} (hmem : s.mem = t.mem) (hregs : s.regs = t.regs) (hpc : s.pc = t.pc)
    (hfl : s.fl = t.fl) (hrun : s.running = t.running) (hfault : s.fault = t.fault) (hout : s.out = t.out)
    (herr : s.err = t.err) : s = t := by
  cases s; cases t; simp_all

end Sys2Proof.Machine
end

