-- ==== Sys2Proof/Laws/Memory.lean ====
section
/-! SUPPORT. The laws of memory: a read after a write, the canonical form, and that the form makes equal memories equal
lists. The read laws need no canonical form. -/

namespace Sys2Proof.Machine

theorem Memory.read_erase (m : Memory) (a x : Nat) :
    (Memory.erase m a).read x = if x = a then Config.resetByte else Memory.read m x := by
  induction m with
  | nil => simp [Memory.erase, Memory.read]
  | cons c rest ih =>
    obtain ⟨k, v⟩ := c
    by_cases hk : k = a
    · subst hk
      by_cases hx : x = k
      · simpa [Memory.erase, hx] using ih
      · simp [Memory.erase, Memory.read, ih, hx, Ne.symm hx]
    · by_cases hx : x = a
      · subst hx
        simpa [Memory.erase, Memory.read, hk] using ih
      · simp [Memory.erase, Memory.read, hk, ih, hx]

theorem Memory.read_insert (m : Memory) (a : Nat) (v : Byte) (x : Nat) (h : ∀ c ∈ m, c.1 ≠ a) :
    (Memory.insert m a v).read x = if x = a then v else Memory.read m x := by
  induction m with
  | nil => simp [Memory.insert, Memory.read, eq_comm]
  | cons c rest ih =>
    obtain ⟨k, w⟩ := c
    have hk : k ≠ a := h (k, w) (by simp)
    have ih' := ih fun c hc => h c (by simp [hc])
    by_cases hlt : a < k
    · by_cases hx : x = a
      · simp [Memory.insert, Memory.read, hlt, hx]
      · simp [Memory.insert, Memory.read, hlt, hx, Ne.symm hx]
    · by_cases hx : x = a
      · subst hx
        simp [Memory.insert, Memory.read, hlt, hk, ih']
      · simp [Memory.insert, Memory.read, hlt, hx, ih']

theorem Memory.erase_keys (m : Memory) (a : Nat) : ∀ c ∈ Memory.erase m a, c.1 ≠ a ∧ c ∈ m := by
  induction m with
  | nil => simp [Memory.erase]
  | cons c rest ih =>
    obtain ⟨k, w⟩ := c
    intro d hd
    by_cases hk : k = a
    · rw [Memory.erase, if_pos hk] at hd
      exact ⟨(ih d hd).1, by simp [(ih d hd).2]⟩
    · rw [Memory.erase, if_neg hk] at hd
      rcases List.mem_cons.mp hd with rfl | hd
      · exact ⟨hk, by simp⟩
      · exact ⟨(ih d hd).1, by simp [(ih d hd).2]⟩

/-- A read after a write gives the value written at that address, and what it gave before everywhere else. -/
theorem Memory.read_write (m : Memory) (a : Nat) (v : Byte) (x : Nat) :
    (Memory.write m a v).read x = if x = a then v else Memory.read m x := by
  by_cases hv : v = Config.resetByte
  · simp [Memory.write, hv, Memory.read_erase]
  · rw [Memory.write, if_neg hv, Memory.read_insert _ _ _ _ fun c hc => (Memory.erase_keys m a c hc).1,
      Memory.read_erase]
    by_cases hx : x = a <;> simp [hx]

theorem State.memRead_memWrite (s : State) (a v x : Byte) :
    (s.memWrite a v).memRead x = if x = a then v else s.memRead x := by
  simp [State.memRead, Memory.read_write, BitVec.toNat_inj]

@[simp] theorem State.memRead_memWrite_self (s : State) (a v : Byte) : (s.memWrite a v).memRead a = v := by
  simp [State.memRead_memWrite]

theorem State.memRead_push (s : State) (p v x : Byte) :
    (s.push p v).memRead x = if x = p then v else s.memRead x :=
  (s.setSp p).memRead_memWrite p v x

/-- The canonical form, taken apart. -/
theorem Memory.wf_cons (k : Nat) (v : Byte) (rest : Memory) :
    Memory.wf ((k, v) :: rest) = true ↔
      k < Config.memSize ∧ v ≠ Config.resetByte ∧ (∀ c ∈ rest, k < c.1) ∧ Memory.wf rest = true := by
  simp [Memory.wf, and_assoc]

theorem Memory.wf_erase (m : Memory) (a : Nat) (h : Memory.wf m = true) : Memory.wf (Memory.erase m a) = true := by
  induction m with
  | nil => exact h
  | cons c rest ih =>
    obtain ⟨k, w⟩ := c
    obtain ⟨hk, hw, hlt, hrest⟩ := (Memory.wf_cons k w rest).mp h
    by_cases hka : k = a
    · simp [Memory.erase, hka, ih hrest]
    · rw [Memory.erase, if_neg hka]
      exact (Memory.wf_cons k w _).mpr ⟨hk, hw, fun c hc => hlt c (Memory.erase_keys rest a c hc).2, ih hrest⟩

theorem Memory.insert_mem (m : Memory) (a : Nat) (v : Byte) : ∀ c ∈ Memory.insert m a v, c = (a, v) ∨ c ∈ m := by
  induction m with
  | nil => simp [Memory.insert]
  | cons c rest ih =>
    obtain ⟨k, w⟩ := c
    intro d hd
    by_cases hlt : a < k
    · simpa [Memory.insert, hlt] using hd
    · rw [Memory.insert, if_neg hlt] at hd
      rcases List.mem_cons.mp hd with rfl | hd
      · simp
      · rcases ih d hd with h | h <;> simp [h]

theorem Memory.wf_insert (m : Memory) (a : Nat) (v : Byte) (ha : a < Config.memSize) (hv : v ≠ Config.resetByte)
    (hne : ∀ c ∈ m, c.1 ≠ a) (h : Memory.wf m = true) : Memory.wf (Memory.insert m a v) = true := by
  induction m with
  | nil => exact (Memory.wf_cons a v []).mpr ⟨ha, hv, by simp, rfl⟩
  | cons c rest ih =>
    obtain ⟨k, w⟩ := c
    obtain ⟨hk, hw, hlt, hrest⟩ := (Memory.wf_cons k w rest).mp h
    have hka : k ≠ a := hne (k, w) (by simp)
    by_cases hak : a < k
    · rw [Memory.insert, if_pos hak]
      refine (Memory.wf_cons a v _).mpr ⟨ha, hv, fun c hc => ?_, h⟩
      rcases List.mem_cons.mp hc with rfl | hc
      · exact hak
      · exact Nat.lt_trans hak (hlt c hc)
    · rw [Memory.insert, if_neg hak]
      refine (Memory.wf_cons k w _).mpr ⟨hk, hw, fun c hc => ?_, ih (fun c hc => hne c (by simp [hc])) hrest⟩
      rcases Memory.insert_mem rest a v c hc with rfl | hc
      · exact Nat.lt_of_le_of_ne (Nat.le_of_not_lt hak) hka
      · exact hlt c hc

/-- A write inside memory keeps the canonical form. -/
theorem Memory.wf_write (m : Memory) (a : Nat) (v : Byte) (ha : a < Config.memSize) (h : Memory.wf m = true) :
    Memory.wf (Memory.write m a v) = true := by
  by_cases hv : v = Config.resetByte
  · simpa [Memory.write, hv] using Memory.wf_erase m a h
  · rw [Memory.write, if_neg hv]
    exact Memory.wf_insert _ a v ha hv (fun c hc => (Memory.erase_keys m a c hc).1) (Memory.wf_erase m a h)

theorem State.wf_memWrite (s : State) (a v : Byte) (h : Memory.wf s.mem = true) :
    Memory.wf (s.memWrite a v).mem = true :=
  Memory.wf_write s.mem a.toNat v a.isLt h

theorem State.wf_push (s : State) (p v : Byte) (h : Memory.wf s.mem = true) :
    Memory.wf (s.push p v).mem = true :=
  (s.setSp p).wf_memWrite p v h

/-- An address below every listed one reads as the reset byte. -/
theorem Memory.read_of_lt (m : Memory) (a : Nat) (h : ∀ c ∈ m, a < c.1) : Memory.read m a = Config.resetByte := by
  induction m with
  | nil => rfl
  | cons c rest ih =>
    obtain ⟨k, w⟩ := c
    have hk : k ≠ a := Nat.ne_of_gt (h (k, w) (by simp))
    rw [Memory.read, if_neg hk]
    exact ih fun c hc => h c (by simp [hc])

/-- The form is canonical: two memories of it that read alike everywhere are the same list. -/
theorem Memory.eq_of_read_eq : ∀ (m n : Memory), Memory.wf m = true → Memory.wf n = true →
    (∀ a, Memory.read m a = Memory.read n a) → m = n
  | [], [], _, _, _ => rfl
  | [], (k, v) :: n, _, hn, h => by
    have hv := ((Memory.wf_cons k v n).mp hn).2.1
    exact absurd (by simpa [Memory.read] using (h k).symm) hv
  | (k, v) :: m, [], hm, _, h => by
    have hv := ((Memory.wf_cons k v m).mp hm).2.1
    exact absurd (by simpa [Memory.read] using h k) hv
  | (k, v) :: m, (l, w) :: n, hm, hn, h => by
    obtain ⟨_, hv, hkm, hm'⟩ := (Memory.wf_cons k v m).mp hm
    obtain ⟨_, hw, hln, hn'⟩ := (Memory.wf_cons l w n).mp hn
    have hkl : k = l := by
      rcases Nat.lt_trichotomy k l with hlt | heq | hgt
      · have hr := Memory.read_of_lt ((l, w) :: n) k fun c hc => by
          rcases List.mem_cons.mp hc with rfl | hc
          · exact hlt
          · exact Nat.lt_trans hlt (hln c hc)
        exact absurd (by rw [← hr, ← h k]; simp [Memory.read]) hv
      · exact heq
      · have hr := Memory.read_of_lt ((k, v) :: m) l fun c hc => by
          rcases List.mem_cons.mp hc with rfl | hc
          · exact hgt
          · exact Nat.lt_trans hgt (hkm c hc)
        exact absurd (by rw [← hr, h l]; simp [Memory.read]) hw
    subst hkl
    have hvw : v = w := by simpa [Memory.read] using h k
    subst hvw
    have hrest : m = n := Memory.eq_of_read_eq m n hm' hn' fun a => by
      by_cases ha : k = a
      · subst ha
        rw [Memory.read_of_lt m k hkm, Memory.read_of_lt n k hln]
      · simpa [Memory.read, ha] using h a
    rw [hrest]

/-- Bytes stored from `a` up are read back at their addresses, and nothing else changes. -/
theorem State.memRead_storeBytes (bs : List Byte) (s : State) (a : Nat) (h : a + bs.length ≤ Config.memSize) (x : Byte) :
    (s.storeBytes a bs).memRead x =
      if a ≤ x.toNat then (bs[x.toNat - a]?).getD (s.memRead x) else s.memRead x := by
  induction bs generalizing s a with
  | nil => simp [State.storeBytes]
  | cons b bs ih =>
    have hlen : a + 1 + bs.length ≤ 256 := by simp [Config.memSize, Config.bits] at h; omega
    have ha : a ≤ Config.maxValue := by simp [Config.maxValue, Config.bits]; omega
    rw [State.storeBytes, if_pos ha, ih _ _ (by simpa [Config.memSize, Config.bits] using hlen), State.memRead_memWrite]
    have hx : x = BitVec.ofNat 8 a ↔ x.toNat = a := by
      rw [← BitVec.toNat_inj, BitVec.toNat_ofNat, Nat.mod_eq_of_lt (by omega)]
    simp only [hx]
    rcases Nat.lt_trichotomy x.toNat a with hlt | heq | hgt
    · simp [Nat.not_le.mpr hlt, Nat.not_le.mpr (Nat.lt_succ_of_lt hlt), Nat.ne_of_lt hlt]
    · simp [heq]
    · obtain ⟨d, hd⟩ : ∃ d, x.toNat - a = d + 1 := ⟨x.toNat - a - 1, by omega⟩
      have hd' : x.toNat - (a + 1) = d := by omega
      simp [Nat.le_of_lt hgt, Nat.succ_le_of_lt hgt, Nat.ne_of_gt hgt, hd, hd']

theorem State.wf_storeBytes (bs : List Byte) (s : State) (a : Nat) (h : Memory.wf s.mem = true) :
    Memory.wf (s.storeBytes a bs).mem = true := by
  induction bs generalizing s a with
  | nil => exact h
  | cons b bs ih =>
    rw [State.storeBytes]
    split
    · exact ih _ _ (s.wf_memWrite _ _ h)
    · exact h

/-- Storing bytes changes memory only. -/
theorem State.storeBytes_frame (bs : List Byte) (s : State) (a : Nat) :
    s.storeBytes a bs = { s with mem := (s.storeBytes a bs).mem } := by
  induction bs generalizing s a with
  | nil => rfl
  | cons b bs ih =>
    rw [State.storeBytes]
    split
    · rw [ih]; rfl
    · rfl

end Sys2Proof.Machine
end

