-- ==== Sys2Proof/Laws/Operands.lean ====
section
/-! SUPPORT. The configuration's numbers, and for each check of Machine/Operands.lean what it does when it passes, when it
raises, and (`…_next`) everything it can do. -/

namespace Sys2Proof

@[simp] theorem Config.memSize_eq : Config.memSize = 256 := rfl
@[simp] theorem Config.numRegs_eq : Config.numRegs = 8 := rfl
@[simp] theorem Config.maxValue_eq : Config.maxValue = 255 := rfl
@[simp] theorem Config.resetByte_eq : Config.resetByte = 0 := rfl
@[simp] theorem Config.pcReset_eq : Config.pcReset = 0 := rfl

end Sys2Proof

namespace Sys2Proof.Machine

theorem spReg_eq : spReg = 7 := rfl

@[simp] theorem regByte_toNat (r : Reg) : (regByte r).toNat = r.val := by
  simp only [regByte, BitVec.toNat_ofNat]
  omega

theorem regByte_injective {r q : Reg} (h : regByte r = regByte q) : r = q := by
  have := congrArg BitVec.toNat h
  simpa [Fin.ext_iff] using this

/-- A byte below 8 is the operand byte of a register. -/
theorem exists_regByte {a : Byte} (h : a.toNat < 8) : ∃ r : Reg, a = regByte r :=
  ⟨⟨a.toNat, h⟩, by rw [← BitVec.toNat_inj, regByte_toNat]⟩

@[simp] theorem immediate_eq (b : Byte) : immediate b = b :=
  BitVec.and_allOnes

theorem alu_add (u v : Byte) : alu .add u v = u + v := by
  rw [← BitVec.toNat_inj]; simp [alu]

theorem alu_mul (u v : Byte) : alu .mul u v = u * v := by
  rw [← BitVec.toNat_inj]; simp [alu]

theorem FlagValue.isEqual_iff (f : FlagValue) : f.isEqual = true ↔ f = .equal := by
  cases f <;> decide

@[simp] theorem compareFlag_eq_equal_iff (u v : Byte) : compareFlag u v = .equal ↔ u = v := by
  unfold compareFlag
  split
  · simp [*]
  · split <;> simp [*]

theorem compareFlag_ne_unset (u v : Byte) : compareFlag u v ≠ .unset := by
  unfold compareFlag
  split
  · simp
  · split <;> simp

variable {s t : State} {rule : Byte → Result}

@[simp] theorem withReg_regByte (r : Reg) (s : State) (rule : Reg → Result) : withReg (regByte r) s rule = rule r := by
  have h : (regByte r).toNat < Config.numRegs := by simp
  rw [withReg, dif_pos h]
  simp

theorem withReg_raise {a : Byte} (h : 8 ≤ a.toNat) (s : State) (rule : Reg → Result) :
    withReg a s rule = raise .registerOutOfRange a s :=
  dif_neg (Nat.not_lt.mpr h)

/-- All that a register operand can do: name a register, or raise. -/
theorem withReg_next {a : Byte} {rule : Reg → Result} (h : withReg a s rule = .next t) :
    (∃ r, a = regByte r ∧ rule r = .next t) ∨
      (8 ≤ a.toNat ∧ t = fatalStop ⟨.registerOutOfRange, a⟩ s) := by
  by_cases ha : a.toNat < 8
  · obtain ⟨r, rfl⟩ := exists_regByte ha
    exact .inl ⟨r, rfl, by simpa using h⟩
  · rw [withReg_raise (Nat.not_lt.mp ha)] at h
    exact .inr ⟨Nat.not_lt.mp ha, by simpa [raise] using h.symm⟩

theorem withSeq_ok {k : Nat} (h : s.pc.toNat + k ≤ 255) :
    withSeq k s rule = rule (BitVec.ofNat 8 (s.pc.toNat + k)) :=
  if_neg (Nat.not_lt.mpr h)

theorem withSeq_raise {k : Nat} (h : 255 < s.pc.toNat + k) :
    withSeq k s rule = raise .pcOutOfRange s.pc s :=
  if_pos h

/-- All that `Seq(k)` can do: form the address, or raise. -/
theorem withSeq_next {k : Nat} (h : withSeq k s rule = .next t) :
    (s.pc.toNat + k ≤ 255 ∧ rule (BitVec.ofNat 8 (s.pc.toNat + k)) = .next t) ∨
      (255 < s.pc.toNat + k ∧ t = fatalStop ⟨.pcOutOfRange, s.pc⟩ s) := by
  by_cases hk : s.pc.toNat + k ≤ 255
  · exact .inl ⟨hk, by rwa [withSeq_ok hk] at h⟩
  · rw [withSeq_raise (Nat.not_le.mp hk)] at h
    exact .inr ⟨Nat.not_le.mp hk, by simpa [raise] using h.symm⟩

/-- The address `Seq(k)` forms is PC + k. -/
theorem toNat_seq {k : Nat} (h : s.pc.toNat + k ≤ 255) :
    (BitVec.ofNat 8 (s.pc.toNat + k)).toNat = s.pc.toNat + k := by
  rw [BitVec.toNat_ofNat]
  omega

theorem withPushRoom_ok (h : s.sp ≠ 0) : withPushRoom s rule = rule (s.sp - 1) :=
  if_neg h

theorem withPushRoom_raise (h : s.sp = 0) : withPushRoom s rule = raise .stackOutOfRange 0 s := by
  rw [withPushRoom, if_pos h, h]

/-- All that the stack check of a push can do. -/
theorem withPushRoom_next (h : withPushRoom s rule = .next t) :
    (s.sp ≠ 0 ∧ rule (s.sp - 1) = .next t) ∨ (s.sp = 0 ∧ t = fatalStop ⟨.stackOutOfRange, 0⟩ s) := by
  by_cases hs : s.sp = 0
  · rw [withPushRoom_raise hs] at h
    exact .inr ⟨hs, by simpa [raise] using h.symm⟩
  · exact .inl ⟨hs, by rwa [withPushRoom_ok hs] at h⟩

theorem withPopRoom_ok {u : Byte} (h : u.toNat + 1 ≤ 255) : withPopRoom u s rule = rule (u + 1) :=
  if_neg (Nat.not_lt.mpr h)

theorem withPopRoom_raise {u : Byte} (h : 255 < u.toNat + 1) :
    withPopRoom u s rule = raise .stackOutOfRange u s :=
  if_pos h

/-- All that the stack check of a pop can do. -/
theorem withPopRoom_next {u : Byte} (h : withPopRoom u s rule = .next t) :
    (u.toNat + 1 ≤ 255 ∧ rule (u + 1) = .next t) ∨
      (255 < u.toNat + 1 ∧ t = fatalStop ⟨.stackOutOfRange, u⟩ s) := by
  by_cases hu : u.toNat + 1 ≤ 255
  · exact .inl ⟨hu, by rwa [withPopRoom_ok hu] at h⟩
  · rw [withPopRoom_raise (Nat.not_le.mp hu)] at h
    exact .inr ⟨Nat.not_le.mp hu, by simpa [raise] using h.symm⟩

end Sys2Proof.Machine
end

