-- ==== Sys2Proof/Laws/Exec.lean ====
section
/-! SUPPORT. What each instruction does: `execX_next`, the state it answers when its checks pass; and `exec_cases`, that a
next state of `exec` is a fatal stop or the state of that effect, so that no later proof unfolds a meaning. -/

namespace Sys2Proof.Machine

variable {s t : State}

theorem execLdi_next (r : Reg) (b : Byte) (h : s.pc.toNat + 3 ≤ 255) :
    exec (.ldi (regByte r) b) s = .next ((s.setReg r b).setPc (BitVec.ofNat 8 (s.pc.toNat + 3))) := by
  simp [exec, execLdi, withSeq_ok h]

theorem execPrn_next (r : Reg) (h : s.pc.toNat + 2 ≤ 255) :
    exec (.prn (regByte r)) s = .next ((s.emitOut (s.reg r)).setPc (BitVec.ofNat 8 (s.pc.toNat + 2))) := by
  simp [exec, execPrn, withSeq_ok h]

theorem execHlt_next (s : State) : exec .hlt s = .next (s.stop.setPc (s.pc + 1)) := by
  simp only [exec, execHlt]
  congr 2
  rw [← BitVec.toNat_inj]
  simp

theorem execMul_next (d r : Reg) (h : s.pc.toNat + 3 ≤ 255) :
    exec (.mul (regByte d) (regByte r)) s =
      .next ((s.setReg d (alu .mul (s.reg d) (s.reg r))).setPc (BitVec.ofNat 8 (s.pc.toNat + 3))) := by
  simp [exec, execMul, aluRule, withSeq_ok h]

theorem execAdd_next (d r : Reg) (h : s.pc.toNat + 3 ≤ 255) :
    exec (.add (regByte d) (regByte r)) s =
      .next ((s.setReg d (alu .add (s.reg d) (s.reg r))).setPc (BitVec.ofNat 8 (s.pc.toNat + 3))) := by
  simp [exec, execAdd, aluRule, withSeq_ok h]

theorem execPush_next (r : Reg) (hs : s.sp ≠ 0) (h : s.pc.toNat + 2 ≤ 255) :
    exec (.push (regByte r)) s =
      .next ((s.push (s.sp - 1) (if r = spReg then s.sp - 1 else s.reg r)).setPc
        (BitVec.ofNat 8 (s.pc.toNat + 2))) := by
  simp [exec, execPush, withSeq_ok h, withPushRoom_ok hs, State.reg_setSp]

theorem execPop_next (r : Reg) (hs : (popPointer r s).toNat + 1 ≤ 255) (h : s.pc.toNat + 2 ≤ 255) :
    exec (.pop (regByte r)) s =
      .next (((s.setReg r (s.memRead s.sp)).setSp (popPointer r s + 1)).setPc
        (BitVec.ofNat 8 (s.pc.toNat + 2))) := by
  simp [exec, execPop, withSeq_ok h, withPopRoom_ok hs]

theorem execCall_next (r : Reg) (hs : s.sp ≠ 0) (h : s.pc.toNat + 2 ≤ 255) :
    exec (.call (regByte r)) s =
      .next ((s.push (s.sp - 1) (BitVec.ofNat 8 (s.pc.toNat + 2))).setPc
        (if r = spReg then s.sp - 1 else s.reg r)) := by
  simp [exec, execCall, withSeq_ok h, withPushRoom_ok hs, State.reg_push]

theorem execRet_next (hs : s.sp.toNat + 1 ≤ 255) :
    exec .ret s = .next ((s.setSp (s.sp + 1)).setPc (s.memRead s.sp)) := by
  simp [exec, execRet, withPopRoom_ok hs]

theorem execCmp_next (p q : Reg) (h : s.pc.toNat + 3 ≤ 255) :
    exec (.cmp (regByte p) (regByte q)) s =
      .next ((s.setFl (compareFlag (s.reg p) (s.reg q))).setPc (BitVec.ofNat 8 (s.pc.toNat + 3))) := by
  simp [exec, execCmp, withSeq_ok h]

theorem execJmp_next (r : Reg) (s : State) : exec (.jmp (regByte r)) s = .next (s.setPc (s.reg r)) := by
  simp [exec, execJmp, jumpTo]

theorem execJeq_taken (r : Reg) (hf : s.fl = .equal) : exec (.jeq (regByte r)) s = .next (s.setPc (s.reg r)) := by
  simp [exec, execJeq, jumpTo, FlagValue.isEqual_iff, hf]

theorem execJeq_notTaken (r : Reg) (hf : s.fl ≠ .equal) (h : s.pc.toNat + 2 ≤ 255) :
    exec (.jeq (regByte r)) s = .next (s.setPc (BitVec.ofNat 8 (s.pc.toNat + 2))) := by
  simp [exec, execJeq, notTaken, withSeq_ok h, FlagValue.isEqual_iff, hf]

theorem execJne_taken (r : Reg) (hf : s.fl ≠ .equal) : exec (.jne (regByte r)) s = .next (s.setPc (s.reg r)) := by
  simp [exec, execJne, jumpTo, FlagValue.isEqual_iff, hf]

theorem execJne_notTaken (r : Reg) (hf : s.fl = .equal) (h : s.pc.toNat + 2 ≤ 255) :
    exec (.jne (regByte r)) s = .next (s.setPc (BitVec.ofNat 8 (s.pc.toNat + 2))) := by
  simp [exec, execJne, notTaken, withSeq_ok h, FlagValue.isEqual_iff, hf]

/-- PC + k as the next PC, an address that exists. -/
def SeqTo (k : Nat) (s : State) (p : Byte) : Prop :=
  s.pc.toNat + k ≤ 255 ∧ p = BitVec.ofNat 8 (s.pc.toNat + k)

/-- The state an instruction answers when every check of its rule passes. -/
def Effect : Instr → State → State → Prop
  | .ldi a b, s, t => ∃ r p, a = regByte r ∧ SeqTo 3 s p ∧ t = (s.setReg r b).setPc p
  | .prn a, s, t => ∃ r p, a = regByte r ∧ SeqTo 2 s p ∧ t = (s.emitOut (s.reg r)).setPc p
  | .hlt, s, t => t = s.stop.setPc (s.pc + 1)
  | .mul a b, s, t => ∃ d r p, a = regByte d ∧ b = regByte r ∧ SeqTo 3 s p ∧
      t = (s.setReg d (alu .mul (s.reg d) (s.reg r))).setPc p
  | .add a b, s, t => ∃ d r p, a = regByte d ∧ b = regByte r ∧ SeqTo 3 s p ∧
      t = (s.setReg d (alu .add (s.reg d) (s.reg r))).setPc p
  | .push a, s, t => ∃ r p, a = regByte r ∧ s.sp ≠ 0 ∧ SeqTo 2 s p ∧
      t = (s.push (s.sp - 1) (if r = spReg then s.sp - 1 else s.reg r)).setPc p
  | .pop a, s, t => ∃ r p, a = regByte r ∧ (popPointer r s).toNat + 1 ≤ 255 ∧ SeqTo 2 s p ∧
      t = ((s.setReg r (s.memRead s.sp)).setSp (popPointer r s + 1)).setPc p
  | .call a, s, t => ∃ r p, a = regByte r ∧ s.sp ≠ 0 ∧ SeqTo 2 s p ∧
      t = (s.push (s.sp - 1) p).setPc (if r = spReg then s.sp - 1 else s.reg r)
  | .ret, s, t => s.sp.toNat + 1 ≤ 255 ∧ t = (s.setSp (s.sp + 1)).setPc (s.memRead s.sp)
  | .cmp a b, s, t => ∃ p q n, a = regByte p ∧ b = regByte q ∧ SeqTo 3 s n ∧
      t = (s.setFl (compareFlag (s.reg p) (s.reg q))).setPc n
  | .jmp a, s, t => ∃ r, a = regByte r ∧ t = s.setPc (s.reg r)
  | .jeq a, s, t => ∃ r, a = regByte r ∧
      ((s.fl = .equal ∧ t = s.setPc (s.reg r)) ∨ (s.fl ≠ .equal ∧ ∃ p, SeqTo 2 s p ∧ t = s.setPc p))
  | .jne a, s, t => ∃ r, a = regByte r ∧
      ((s.fl ≠ .equal ∧ t = s.setPc (s.reg r)) ∨ (s.fl = .equal ∧ ∃ p, SeqTo 2 s p ∧ t = s.setPc p))

/-- The fault kinds an instruction's rule can raise. -/
def RuleKind (k : FaultKind) : Prop :=
  k = .registerOutOfRange ∨ k = .stackOutOfRange ∨ k = .pcOutOfRange

/-- Either a fault of the instruction's rule is raised, or `E` holds. -/
def FaultOr (s t : State) (E : Prop) : Prop :=
  (∃ f, RuleKind f.kind ∧ t = fatalStop f s) ∨ E

theorem withReg_cases {a : Byte} {rule : Reg → Result} {E : Prop} (h : withReg a s rule = .next t)
    (hr : ∀ r, a = regByte r → rule r = .next t → FaultOr s t E) : FaultOr s t E := by
  rcases withReg_next h with ⟨r, ha, h⟩ | ⟨-, h⟩
  · exact hr r ha h
  · exact .inl ⟨_, .inl rfl, h⟩

theorem withSeq_cases {k : Nat} {rule : Byte → Result} {E : Prop} (h : withSeq k s rule = .next t)
    (hr : ∀ p, SeqTo k s p → rule p = .next t → FaultOr s t E) : FaultOr s t E := by
  rcases withSeq_next h with ⟨hk, h⟩ | ⟨-, h⟩
  · exact hr _ ⟨hk, rfl⟩ h
  · exact .inl ⟨_, .inr (.inr rfl), h⟩

theorem withPushRoom_cases {rule : Byte → Result} {E : Prop} (h : withPushRoom s rule = .next t)
    (hr : s.sp ≠ 0 → rule (s.sp - 1) = .next t → FaultOr s t E) : FaultOr s t E := by
  rcases withPushRoom_next h with ⟨hs, h⟩ | ⟨-, h⟩
  · exact hr hs h
  · exact .inl ⟨_, .inr (.inl rfl), h⟩

theorem withPopRoom_cases {u : Byte} {rule : Byte → Result} {E : Prop} (h : withPopRoom u s rule = .next t)
    (hr : u.toNat + 1 ≤ 255 → rule (u + 1) = .next t → FaultOr s t E) : FaultOr s t E := by
  rcases withPopRoom_next h with ⟨hs, h⟩ | ⟨-, h⟩
  · exact hr hs h
  · exact .inl ⟨_, .inr (.inl rfl), h⟩

/-- Everything an instruction can do: raise a fault of its rule, or have its effect. -/
theorem exec_cases {i : Instr} (h : exec i s = .next t) : FaultOr s t (Effect i s t) := by
  cases i with
  | ldi a b =>
    simp only [exec, execLdi, immediate_eq] at h
    exact withReg_cases h fun r ha h => withSeq_cases h fun p hp h => .inr ⟨r, p, ha, hp, (Host.Outcome.next.inj h).symm⟩
  | prn a =>
    simp only [exec, execPrn] at h
    exact withReg_cases h fun r ha h => withSeq_cases h fun p hp h => .inr ⟨r, p, ha, hp, (Host.Outcome.next.inj h).symm⟩
  | hlt =>
    rw [execHlt_next] at h
    exact .inr (Host.Outcome.next.inj h).symm
  | mul a b =>
    simp only [exec, execMul, aluRule] at h
    exact withReg_cases h fun d ha h => withReg_cases h fun r hb h => withSeq_cases h fun p hp h =>
      .inr ⟨d, r, p, ha, hb, hp, (Host.Outcome.next.inj h).symm⟩
  | add a b =>
    simp only [exec, execAdd, aluRule] at h
    exact withReg_cases h fun d ha h => withReg_cases h fun r hb h => withSeq_cases h fun p hp h =>
      .inr ⟨d, r, p, ha, hb, hp, (Host.Outcome.next.inj h).symm⟩
  | push a =>
    simp only [exec, execPush, State.reg_setSp] at h
    exact withReg_cases h fun r ha h => withPushRoom_cases h fun hs h => withSeq_cases h fun p hp h =>
      .inr ⟨r, p, ha, hs, hp, (Host.Outcome.next.inj h).symm⟩
  | pop a =>
    simp only [exec, execPop] at h
    exact withReg_cases h fun r ha h => withPopRoom_cases h fun hs h => withSeq_cases h fun p hp h =>
      .inr ⟨r, p, ha, hs, hp, (Host.Outcome.next.inj h).symm⟩
  | call a =>
    simp only [exec, execCall, State.reg_push] at h
    exact withReg_cases h fun r ha h => withPushRoom_cases h fun hs h => withSeq_cases h fun p hp h =>
      .inr ⟨r, p, ha, hs, hp, (Host.Outcome.next.inj h).symm⟩
  | ret =>
    simp only [exec, execRet] at h
    exact withPopRoom_cases h fun hs h => .inr ⟨hs, (Host.Outcome.next.inj h).symm⟩
  | cmp a b =>
    simp only [exec, execCmp] at h
    exact withReg_cases h fun p ha h => withReg_cases h fun q hb h => withSeq_cases h fun n hn h =>
      .inr ⟨p, q, n, ha, hb, hn, (Host.Outcome.next.inj h).symm⟩
  | jmp a =>
    simp only [exec, execJmp, jumpTo] at h
    exact withReg_cases h fun r ha h => .inr ⟨r, ha, (Host.Outcome.next.inj h).symm⟩
  | jeq a =>
    simp only [exec, execJeq, jumpTo, notTaken, FlagValue.isEqual_iff] at h
    refine withReg_cases h fun r ha h => ?_
    by_cases hf : s.fl = .equal
    · rw [if_pos hf] at h
      exact .inr ⟨r, ha, .inl ⟨hf, (Host.Outcome.next.inj h).symm⟩⟩
    · rw [if_neg hf] at h
      exact withSeq_cases h fun p hp h => .inr ⟨r, ha, .inr ⟨hf, p, hp, (Host.Outcome.next.inj h).symm⟩⟩
  | jne a =>
    simp only [exec, execJne, jumpTo, notTaken, FlagValue.isEqual_iff] at h
    refine withReg_cases h fun r ha h => ?_
    by_cases hf : s.fl = .equal
    · rw [if_pos hf] at h
      exact withSeq_cases h fun p hp h => .inr ⟨r, ha, .inr ⟨hf, p, hp, (Host.Outcome.next.inj h).symm⟩⟩
    · rw [if_neg hf] at h
      exact .inr ⟨r, ha, .inl ⟨hf, (Host.Outcome.next.inj h).symm⟩⟩

/-! What an effect leaves alone, whichever instruction it is. -/

theorem Effect.control {i : Instr} (h : Effect i s t) :
    t.fault = s.fault ∧ t.err = s.err ∧ (i ≠ .hlt → t.running = s.running) := by
  cases i with
  | ldi a b => obtain ⟨r, p, -, -, rfl⟩ := h; exact ⟨rfl, rfl, fun _ => rfl⟩
  | prn a => obtain ⟨r, p, -, -, rfl⟩ := h; exact ⟨rfl, rfl, fun _ => rfl⟩
  | hlt => cases h; exact ⟨rfl, rfl, fun hne => absurd rfl hne⟩
  | mul a b => obtain ⟨d, r, p, -, -, -, rfl⟩ := h; exact ⟨rfl, rfl, fun _ => rfl⟩
  | add a b => obtain ⟨d, r, p, -, -, -, rfl⟩ := h; exact ⟨rfl, rfl, fun _ => rfl⟩
  | push a => obtain ⟨r, p, -, -, -, rfl⟩ := h; exact ⟨rfl, rfl, fun _ => rfl⟩
  | pop a => obtain ⟨r, p, -, -, -, rfl⟩ := h; exact ⟨rfl, rfl, fun _ => rfl⟩
  | call a => obtain ⟨r, p, -, -, -, rfl⟩ := h; exact ⟨rfl, rfl, fun _ => rfl⟩
  | ret => obtain ⟨-, rfl⟩ := h; exact ⟨rfl, rfl, fun _ => rfl⟩
  | cmp a b => obtain ⟨p, q, n, -, -, -, rfl⟩ := h; exact ⟨rfl, rfl, fun _ => rfl⟩
  | jmp a => obtain ⟨r, -, rfl⟩ := h; exact ⟨rfl, rfl, fun _ => rfl⟩
  | jeq a => obtain ⟨r, -, ⟨-, rfl⟩ | ⟨-, p, -, rfl⟩⟩ := h <;> exact ⟨rfl, rfl, fun _ => rfl⟩
  | jne a => obtain ⟨r, -, ⟨-, rfl⟩ | ⟨-, p, -, rfl⟩⟩ := h <;> exact ⟨rfl, rfl, fun _ => rfl⟩

/-- FL after an effect: as before it, or what a CMP stored. -/
theorem Effect.flag {i : Instr} (h : Effect i s t) :
    t.fl = s.fl ∨ ∃ p q : Reg, i = .cmp (regByte p) (regByte q) ∧ t.fl = compareFlag (s.reg p) (s.reg q) := by
  cases i with
  | ldi a b => obtain ⟨r, p, -, -, rfl⟩ := h; exact .inl rfl
  | prn a => obtain ⟨r, p, -, -, rfl⟩ := h; exact .inl rfl
  | hlt => cases h; exact .inl rfl
  | mul a b => obtain ⟨d, r, p, -, -, -, rfl⟩ := h; exact .inl rfl
  | add a b => obtain ⟨d, r, p, -, -, -, rfl⟩ := h; exact .inl rfl
  | push a => obtain ⟨r, p, -, -, -, rfl⟩ := h; exact .inl rfl
  | pop a => obtain ⟨r, p, -, -, -, rfl⟩ := h; exact .inl rfl
  | call a => obtain ⟨r, p, -, -, -, rfl⟩ := h; exact .inl rfl
  | ret => obtain ⟨-, rfl⟩ := h; exact .inl rfl
  | cmp a b => obtain ⟨p, q, n, rfl, rfl, -, rfl⟩ := h; exact .inr ⟨p, q, rfl, rfl⟩
  | jmp a => obtain ⟨r, -, rfl⟩ := h; exact .inl rfl
  | jeq a => obtain ⟨r, -, ⟨-, rfl⟩ | ⟨-, p, -, rfl⟩⟩ := h <;> exact .inl rfl
  | jne a => obtain ⟨r, -, ⟨-, rfl⟩ | ⟨-, p, -, rfl⟩⟩ := h <;> exact .inl rfl

/-- OUT after an effect: as before it, or what a PRN appended. -/
theorem Effect.output {i : Instr} (h : Effect i s t) :
    t.out = s.out ∨ ∃ r : Reg, i = .prn (regByte r) ∧ t.out = s.out ++ [s.reg r] := by
  cases i with
  | ldi a b => obtain ⟨r, p, -, -, rfl⟩ := h; exact .inl rfl
  | prn a => obtain ⟨r, p, rfl, -, rfl⟩ := h; exact .inr ⟨r, rfl, rfl⟩
  | hlt => cases h; exact .inl rfl
  | mul a b => obtain ⟨d, r, p, -, -, -, rfl⟩ := h; exact .inl rfl
  | add a b => obtain ⟨d, r, p, -, -, -, rfl⟩ := h; exact .inl rfl
  | push a => obtain ⟨r, p, -, -, -, rfl⟩ := h; exact .inl rfl
  | pop a => obtain ⟨r, p, -, -, -, rfl⟩ := h; exact .inl rfl
  | call a => obtain ⟨r, p, -, -, -, rfl⟩ := h; exact .inl rfl
  | ret => obtain ⟨-, rfl⟩ := h; exact .inl rfl
  | cmp a b => obtain ⟨p, q, n, -, -, -, rfl⟩ := h; exact .inl rfl
  | jmp a => obtain ⟨r, -, rfl⟩ := h; exact .inl rfl
  | jeq a => obtain ⟨r, -, ⟨-, rfl⟩ | ⟨-, p, -, rfl⟩⟩ := h <;> exact .inl rfl
  | jne a => obtain ⟨r, -, ⟨-, rfl⟩ | ⟨-, p, -, rfl⟩⟩ := h <;> exact .inl rfl

/-- Memory after an effect: as before it, or with the one cell below SP written by a PUSH or CALL. -/
theorem Effect.memory {i : Instr} (h : Effect i s t) :
    t.mem = s.mem ∨ ∃ (r : Reg) (v : Byte), (i = .push (regByte r) ∨ i = .call (regByte r)) ∧
      t.mem = (s.memWrite (s.sp - 1) v).mem := by
  cases i with
  | ldi a b => obtain ⟨r, p, -, -, rfl⟩ := h; exact .inl rfl
  | prn a => obtain ⟨r, p, -, -, rfl⟩ := h; exact .inl rfl
  | hlt => cases h; exact .inl rfl
  | mul a b => obtain ⟨d, r, p, -, -, -, rfl⟩ := h; exact .inl rfl
  | add a b => obtain ⟨d, r, p, -, -, -, rfl⟩ := h; exact .inl rfl
  | push a => obtain ⟨r, p, rfl, -, -, rfl⟩ := h; exact .inr ⟨r, _, .inl rfl, rfl⟩
  | pop a => obtain ⟨r, p, -, -, -, rfl⟩ := h; exact .inl rfl
  | call a => obtain ⟨r, p, rfl, -, -, rfl⟩ := h; exact .inr ⟨r, _, .inr rfl, rfl⟩
  | ret => obtain ⟨-, rfl⟩ := h; exact .inl rfl
  | cmp a b => obtain ⟨p, q, n, -, -, -, rfl⟩ := h; exact .inl rfl
  | jmp a => obtain ⟨r, -, rfl⟩ := h; exact .inl rfl
  | jeq a => obtain ⟨r, -, ⟨-, rfl⟩ | ⟨-, p, -, rfl⟩⟩ := h <;> exact .inl rfl
  | jne a => obtain ⟨r, -, ⟨-, rfl⟩ | ⟨-, p, -, rfl⟩⟩ := h <;> exact .inl rfl

end Sys2Proof.Machine
end

