-- ==== Sys2Proof/Laws/PerInstr.lean ====
section
/-! SUPPORT. Statements made per instruction, one lemma per constructor. The family Widths: the operand count that the top
two bits of an instruction's opcode encode is the number of its operand bytes, and its width is one more (R80, R86). -/

namespace Sys2Proof.Laws.Widths

/-- The opcode's bits 7:6 count the operand bytes, and the width is that count + 1. -/
def Statement (i : Instr) : Prop :=
  operandCount (opcodeOf i) = (operandBytes i).length ∧ i.width = operandCount (opcodeOf i) + 1

/-- An instruction is its opcode byte and its operand bytes. -/
theorem of_count {i : Instr} (op : Byte) (n : Nat) (hop : opcodeOf i = op) (hn : (operandBytes i).length = n)
    (h : operandCount op = n) : Statement i := by
  subst hop hn
  exact ⟨h, by rw [h]; rfl⟩

theorem ldi (a b : Byte) : Statement (.ldi a b) := of_count 0x82 2 rfl rfl (by decide)
theorem prn (a : Byte) : Statement (.prn a) := of_count 0x47 1 rfl rfl (by decide)
theorem hlt : Statement .hlt := of_count 0x01 0 rfl rfl (by decide)
theorem mul (a b : Byte) : Statement (.mul a b) := of_count 0xA2 2 rfl rfl (by decide)
theorem add (a b : Byte) : Statement (.add a b) := of_count 0xA0 2 rfl rfl (by decide)
theorem push (a : Byte) : Statement (.push a) := of_count 0x45 1 rfl rfl (by decide)
theorem pop (a : Byte) : Statement (.pop a) := of_count 0x46 1 rfl rfl (by decide)
theorem call (a : Byte) : Statement (.call a) := of_count 0x50 1 rfl rfl (by decide)
theorem ret : Statement .ret := of_count 0x11 0 rfl rfl (by decide)
theorem cmp (a b : Byte) : Statement (.cmp a b) := of_count 0xA7 2 rfl rfl (by decide)
theorem jmp (a : Byte) : Statement (.jmp a) := of_count 0x54 1 rfl rfl (by decide)
theorem jeq (a : Byte) : Statement (.jeq a) := of_count 0x55 1 rfl rfl (by decide)
theorem jne (a : Byte) : Statement (.jne a) := of_count 0x56 1 rfl rfl (by decide)

end Sys2Proof.Laws.Widths
end

