-- ==== Sys2Proof/Laws/Step.lean ====
section
/-! SUPPORT. Fetch and step: what the fetch window holds, and `step_cases`, everything a step can do. -/

namespace Sys2Proof.Machine

variable {s t : State}

/-- The window begins with the opcode byte, whatever PC is. -/
theorem fetchWindow_eq (s : State) :
    fetchWindow s = s.memRead s.pc :: s.bytesAt (s.pc.toNat + 1) 2 := by
  have h : s.pc.toNat ≤ Config.maxValue := Nat.le_of_lt_succ s.pc.isLt
  rw [fetchWindow, State.bytesAt, if_pos h, BitVec.ofNat_toNat, BitVec.setWidth_eq]

/-- How many bytes of a run of bytes exist: those up to address 255. -/
theorem State.length_bytesAt (s : State) (a n : Nat) : (s.bytesAt a n).length = min n (256 - a) := by
  induction n generalizing a with
  | zero => simp [State.bytesAt]
  | succ n ih =>
    rw [State.bytesAt]
    split
    · rename_i h
      rw [Config.maxValue_eq] at h
      rw [List.length_cons, ih]
      omega
    · rename_i h
      rw [Config.maxValue_eq] at h
      rw [List.length_nil]
      omega

/-- Where `bs` stands in memory at `a`, a run of bytes from `a` begins with it. -/
theorem State.bytesAt_eq_append (s : State) (n a : Nat) (bs : List Byte) (ha : a + bs.length ≤ 256)
    (hn : bs.length ≤ n) (hb : ∀ (k : Nat) (h : k < bs.length), s.memRead (BitVec.ofNat 8 (a + k)) = bs[k]) :
    ∃ rest, s.bytesAt a n = bs ++ rest := by
  induction bs generalizing a n with
  | nil => exact ⟨_, rfl⟩
  | cons b bs ih =>
    obtain ⟨m, rfl⟩ : ∃ m, n = m + 1 := ⟨n - 1, by simp at hn; omega⟩
    simp only [List.length_cons] at ha hn
    obtain ⟨rest, hr⟩ := ih m (a + 1) (by omega) (by omega) fun k hk => by
      have := hb (k + 1) (by simpa using hk)
      rw [List.getElem_cons_succ] at this
      rw [← this, Nat.add_assoc, Nat.add_comm 1 k]
    have h0 : s.memRead (BitVec.ofNat 8 a) = b := hb 0 (by simp)
    have hmax : a ≤ Config.maxValue := by rw [Config.maxValue_eq]; omega
    exact ⟨rest, by rw [State.bytesAt, if_pos hmax, hr, h0, List.cons_append]⟩

theorem step_stopped (h : s.running = false) : step s = .next s := by
  simp [step, h]

theorem step_ok {i : Instr} (h : s.running = true) (hd : fetchDecode s = .ok i) : step s = exec i s := by
  simp [step, h, hd]

theorem step_error {f : FaultReport} (h : s.running = true) (hd : fetchDecode s = .error f) :
    step s = .next (fatalStop f s) := by
  simp [step, h, hd]

/-- The fault a fetch can raise: UnknownOpcode or PCOutOfRange. -/
theorem fetchDecode_error {f : FaultReport} (h : fetchDecode s = .error f) :
    f.kind = .unknownOpcode ∨ f.kind = .pcOutOfRange := by
  unfold fetchDecode at h
  split at h
  · cases h
  · cases h; exact .inl rfl
  · cases h; exact .inr rfl

/-- Everything a step can do: nothing (stopped), a fatal stop of the fetch, a fatal stop of the instruction's rule, or the
instruction's effect. -/
theorem step_cases (h : step s = .next t) :
    (s.running = false ∧ t = s) ∨
    (s.running = true ∧ ∃ f, fetchDecode s = .error f ∧ t = fatalStop f s) ∨
    (s.running = true ∧ ∃ i, fetchDecode s = .ok i ∧
      FaultOr s t (Effect i s t)) := by
  by_cases hr : s.running = true
  · cases hd : fetchDecode s with
    | ok i =>
      rw [step_ok hr hd] at h
      exact .inr (.inr ⟨hr, i, rfl, exec_cases h⟩)
    | error f =>
      rw [step_error hr hd] at h
      exact .inr (.inl ⟨hr, f, rfl, (Host.Outcome.next.inj h).symm⟩)
  · have hr' : s.running = false := by simpa using hr
    rw [step_stopped hr'] at h
    exact .inl ⟨hr', (Host.Outcome.next.inj h).symm⟩

end Sys2Proof.Machine
end

