-- ==== Sys2Proof/WellFormed.lean ====
section
/-! DEFINITION. Which instructions are well formed: every operand byte that names a register is at most 7
(30_encoding.md R89). The immediate of LDI is any byte (R90). An ill-formed instruction still decodes and runs:
its rule raises RegisterOutOfRange (R176). -/

namespace Sys2Proof

/-- The operand byte names a register that exists: it is below NREG = 8, all eight bits counted (R89). -/
def namesRegister (a : Byte) : Bool :=
  decide (a.toNat < Config.numRegs)

/-- Every register operand names a register that exists. -/
def Instr.wellFormed : Instr → Bool
  | .ldi a _ => namesRegister a
  | .prn a => namesRegister a
  | .hlt => true
  | .mul a b => namesRegister a && namesRegister b
  | .add a b => namesRegister a && namesRegister b
  | .push a => namesRegister a
  | .pop a => namesRegister a
  | .call a => namesRegister a
  | .ret => true
  | .cmp a b => namesRegister a && namesRegister b
  | .jmp a => namesRegister a
  | .jeq a => namesRegister a
  | .jne a => namesRegister a

end Sys2Proof
end

