-- ==== Sys2Proof/Tests/Slice0.lean ====
section
/-! SUPPORT. Small tests. Expected results come from the spec: the encodings of 30_encoding.md R85 and R93, the vectors V<n> of
95_test_vectors.md, the values of 00_scope.md R7; and one theorem for each statement of Obligations.lean that has hypotheses,
showing states and operands that meet them (for several clauses, each clause, at a boundary). -/

namespace Sys2Proof.Tests

open Sys2Proof.Machine

/-! ## The configuration and the codes -/

/-- R7's table. -/
theorem test_parameters : Config.bits = 8 ∧ Config.memSize = 256 ∧ Config.numRegs = 8 ∧ Config.maxValue = 255 ∧
    Config.spIndex = 7 ∧ Config.spReset = 244 ∧ Config.pcReset = 0 := by decide

/-- R31's display code and R170's fault codes. -/
theorem test_codes : ([.unset, .equal, .greater, .less] : List FlagValue).map FlagValue.code = [0b000, 0b001, 0b010, 0b100] ∧
    ([.unknownOpcode, .stackOutOfRange, .unsupportedALUOp, .loadOverflow, .pcOutOfRange, .registerOutOfRange] :
      List FaultKind).map FaultKind.code = [1, 2, 3, 4, 5, 6] ∧ faultCode none = 0 ∧
    faultCode (some ⟨.loadOverflow, 1⟩) = 4 := by decide

/-! ## WellFormed: an ill-formed term for each check -/

theorem test_wf_ldi : (Instr.ldi 8 0).wellFormed = false ∧ (Instr.ldi 7 255).wellFormed = true := by decide
theorem test_wf_prn : (Instr.prn 8).wellFormed = false ∧ (Instr.prn 7).wellFormed = true := by decide
theorem test_wf_push : (Instr.push 8).wellFormed = false ∧ (Instr.push 7).wellFormed = true := by decide
theorem test_wf_pop : (Instr.pop 8).wellFormed = false ∧ (Instr.pop 7).wellFormed = true := by decide
theorem test_wf_call : (Instr.call 8).wellFormed = false ∧ (Instr.call 7).wellFormed = true := by decide
theorem test_wf_jmp : (Instr.jmp 8).wellFormed = false ∧ (Instr.jmp 7).wellFormed = true := by decide
theorem test_wf_jeq : (Instr.jeq 8).wellFormed = false ∧ (Instr.jeq 7).wellFormed = true := by decide
theorem test_wf_jne : (Instr.jne 8).wellFormed = false ∧ (Instr.jne 7).wellFormed = true := by decide
theorem test_wf_mul : (Instr.mul 8 0).wellFormed = false ∧ (Instr.mul 0 255).wellFormed = false ∧
    (Instr.mul 7 7).wellFormed = true := by decide
theorem test_wf_add : (Instr.add 8 0).wellFormed = false ∧ (Instr.add 0 255).wellFormed = false ∧
    (Instr.add 7 7).wellFormed = true := by decide
theorem test_wf_cmp : (Instr.cmp 8 0).wellFormed = false ∧ (Instr.cmp 0 255).wellFormed = false ∧
    (Instr.cmp 7 7).wellFormed = true := by decide
theorem test_wf_no_operand : Instr.hlt.wellFormed = true ∧ Instr.ret.wellFormed = true := by decide

/-! ## Decoding: a word written out for every constructor (first byte least significant) -/

theorem test_decode_ldi : decodeTableWord 24 0b00001000_00000011_10000010 = some (.ldi 3 8) := by decide
theorem test_decode_prn : decodeTableWord 16 0b00000111_01000111 = some (.prn 7) := by decide
theorem test_decode_hlt : decodeTableWord 8 0b00000001 = some .hlt := by decide
theorem test_decode_mul : decodeTableWord 24 0b00000010_00000101_10100010 = some (.mul 5 2) := by decide
theorem test_decode_add : decodeTableWord 24 0b00000001_00000110_10100000 = some (.add 6 1) := by decide
theorem test_decode_push : decodeTableWord 16 0b00000100_01000101 = some (.push 4) := by decide
theorem test_decode_pop : decodeTableWord 16 0b00000001_01000110 = some (.pop 1) := by decide
theorem test_decode_call : decodeTableWord 16 0b00000010_01010000 = some (.call 2) := by decide
theorem test_decode_ret : decodeTableWord 8 0b00010001 = some .ret := by decide
theorem test_decode_cmp : decodeTableWord 24 0b00000010_00000001_10100111 = some (.cmp 1 2) := by decide
theorem test_decode_jmp : decodeTableWord 16 0b00000100_01010100 = some (.jmp 4) := by decide
theorem test_decode_jeq : decodeTableWord 16 0b00000101_01010101 = some (.jeq 5) := by decide
theorem test_decode_jne : decodeTableWord 16 0b00000110_01010110 = some (.jne 6) := by decide

/-- Neighbours of table entries and the bytes with op[7:6] = 11 are refused (V101 to V108). -/
theorem test_decode_refuses : [0x00, 0xFF, 0xC0, 0xA1, 0x44, 0x12, 0x83, 0x02].map (decodeTableWord 8) =
    List.replicate 8 none := by decide

/-- R93's rows for two instructions. -/
theorem test_encode : encode (.ldi 0 8) = [0x82, 0x00, 0x08] ∧ encode .ret = [0x11] := by decide

/-- The bits above nbits are 0. -/
theorem test_decode_pads : decodeTableWord 8 0xFFFF82 = some (.ldi 0 0) := by decide

/-! ## Single steps: the spec's vectors -/

/-- The state after one step with the bytes at PC. -/
def after (s : State) (bytes : List Byte) : State :=
  HostOp.apply .step (s.storeBytes s.pc.toNat bytes)

/-- The reset state with another PC. -/
def atPc (p : Byte) : State :=
  State.reset.setPc p

/-- The fault latched, if the core has stopped at PC 0. -/
def stopFault (t : State) : Option FaultReport :=
  if t.running = false ∧ t.pc = 0 then t.fault else none

theorem test_ldi_V2 : let t := after ((atPc 10).setReg 3 77) [0x82, 0x03, 0xFF]
    t.pc = 13 ∧ t.reg 3 = 255 := by decide
theorem test_ldi_V8 : let t := after (atPc 253) [0x82, 0x00, 0x09]
    stopFault t = some ⟨.pcOutOfRange, 253⟩ ∧ t.reg 0 = 0 := by decide
theorem test_prn_V11 : let t := after ((atPc 3).setReg 2 255) [0x47, 0x02]
    t.pc = 5 ∧ t.out = [255] := by decide
theorem test_prn_V15 : let t := after ((atPc 254).setReg 1 5) [0x47, 0x01]
    stopFault t = some ⟨.pcOutOfRange, 254⟩ ∧ t.out = [] := by decide
theorem test_hlt_V17 : let t := after (atPc 5) [0x01]
    t.pc = 6 ∧ t.running = false ∧ t.fault = none := by decide
theorem test_hlt_V18 : let t := after (atPc 255) [0x01]
    t.pc = 0 ∧ t.running = false ∧ t.fault = none := by decide
theorem test_mul_V23 : let t := after (((atPc 6).setReg 0 200).setReg 1 2) [0xA2, 0x00, 0x01]
    t.pc = 9 ∧ t.reg 0 = 144 := by decide
theorem test_mul_V31 : let t := after (atPc 6) [0xA2, 0x09, 0x0A]
    stopFault t = some ⟨.registerOutOfRange, 9⟩ := by decide
theorem test_add_V33 : let t := after (((atPc 6).setReg 0 200).setReg 1 100) [0xA0, 0x00, 0x01]
    t.reg 0 = 44 ∧ t.reg 1 = 100 := by decide
theorem test_add_V41 : let t := after ((atPc 6).setReg 1 4) [0xA0, 0x01, 0x08]
    stopFault t = some ⟨.registerOutOfRange, 8⟩ ∧ t.reg 1 = 4 := by decide
theorem test_push_V46 : let t := after (atPc 6) [0x45, 0x07]
    t.pc = 8 ∧ t.sp = 243 ∧ t.memRead 0xF3 = 243 := by decide
theorem test_push_V50 : let t := after (((atPc 254).setReg 0 7).setSp 0) [0x45, 0x00]
    stopFault t = some ⟨.stackOutOfRange, 0⟩ ∧ t.sp = 0 := by decide
theorem test_pop_V55 : let t := after (((atPc 8).setSp 243).memWrite 0xF3 32) [0x46, 0x07]
    t.pc = 10 ∧ t.sp = 33 := by decide
theorem test_pop_V54 : let t := after (((atPc 8).setSp 255).memWrite 0xFF 9) [0x46, 0x01]
    stopFault t = some ⟨.stackOutOfRange, 255⟩ ∧ t.reg 1 = 0 := by decide
theorem test_call_V59 : let t := after ((atPc 6).setReg 1 11) [0x50, 0x01]
    t.pc = 11 ∧ t.sp = 243 ∧ t.memRead 0xF3 = 8 := by decide
theorem test_call_V61 : let t := after (atPc 6) [0x50, 0x07]
    t.pc = 243 ∧ t.sp = 243 ∧ t.memRead 0xF3 = 8 := by decide
theorem test_ret_V69 : let t := after (((atPc 255).setSp 243).memWrite 0xF3 8) [0x11]
    t.pc = 8 ∧ t.sp = 244 := by decide
theorem test_ret_V68 : let t := after (((atPc 21).setSp 255).memWrite 0xFF 8) [0x11]
    stopFault t = some ⟨.stackOutOfRange, 255⟩ ∧ t.sp = 255 := by decide
theorem test_cmp_V74 : let t := after (((atPc 21).setReg 0 255).setReg 2 1) [0xA7, 0x00, 0x02]
    t.pc = 24 ∧ t.fl = .greater := by decide
theorem test_cmp_V72 : let t := after ((atPc 21).setReg 2 4) [0xA7, 0x00, 0x02]
    t.fl = .less := by decide
theorem test_jmp_V83 : let t := after ((atPc 254).setReg 4 15) [0x54, 0x04]
    t.pc = 15 := by decide
theorem test_jmp_V84 : let t := after (atPc 255) [0x54]
    stopFault t = some ⟨.pcOutOfRange, 255⟩ := by decide
theorem test_jeq_V91 : let t := after (((atPc 254).setReg 2 16).setFl .equal) [0x55, 0x02]
    t.pc = 16 := by decide
theorem test_jeq_V90 : let t := after ((atPc 12).setReg 2 16) [0x55, 0x02]
    t.pc = 14 := by decide
theorem test_jne_V97 : let t := after ((atPc 24).setReg 4 15) [0x56, 0x04]
    t.pc = 15 := by decide
theorem test_jne_V98 : let t := after (((atPc 254).setReg 4 15).setFl .equal) [0x56, 0x04]
    stopFault t = some ⟨.pcOutOfRange, 254⟩ := by decide
theorem test_unknown_V109 : let t := after (atPc 255) [0x00]
    stopFault t = some ⟨.unknownOpcode, 0⟩ ∧ t.err = [⟨.unknownOpcode, 0⟩] := by decide

/-- A fetch word runs as the first instruction after reset. -/
theorem test_withFetchWord : let t := HostOp.apply .step (State.reset.withFetchWord 24 0x080082)
    t.reg 0 = 8 ∧ t.pc = 3 := by decide

/-- V112, V117: a load writes only its own cells. -/
theorem test_load_V117 : let t := load [0x01] (State.reset.memWrite 0x50 9)
    t.memRead 0 = 1 ∧ t.memRead 0x50 = 9 ∧ load [] t = t := by decide

/-- V111, V118: 257 bytes are refused whole, and a second refusal changes nothing. -/
theorem test_load_V111 : let t := load (List.replicate 257 1) State.reset
    t = fatalStop ⟨.loadOverflow, 1⟩ State.reset ∧ load (List.replicate 257 1) t = t := by
  have h : ∀ s, load (List.replicate 257 1) s = match s.fault with
      | none => fatalStop ⟨.loadOverflow, 1⟩ s
      | some _ => s := by
    intro s
    rw [load, List.length_replicate, if_neg (by decide)]
    rfl
  rw [h]
  exact ⟨rfl, h _⟩

/-- P1 of part 3, the source's own example. -/
theorem test_run_P1 : let t := runFuel 4 (load [0x82, 0x00, 0x08, 0x47, 0x00, 0x01] State.reset)
    t.map State.out = some [8] ∧ t.map State.running = some false ∧ t.map State.pc = some 6 := by decide

/-- P6 of part 3: the HLT that the third step stores is the fourth step's. -/
theorem test_run_P6 : let t := runFuel 5 (load [0x82, 0x07, 0x09, 0x82, 0x00, 0x01, 0x45, 0x00] State.reset)
    t.map State.pc = some 9 ∧ t.map State.fault = some none := by decide

/-! ## Witnesses: each statement's hypotheses are met -/

theorem witness_decodedBytes : decode [0x82, 0x07, 0xFF, 0x01] = .ok (.ldi 7 255, [0x01]) := rfl
theorem witness_loadedInstruction : ((List.replicate 253 Instr.hlt ++ Instr.ldi 0 8 :: []).flatMap encode).length ≤ 256 := by
  rw [List.flatMap_append, List.length_append, List.length_flatMap, List.map_replicate, List.sum_replicate_nat]
  decide
theorem witness_loadedInstruction_first : (([] ++ Instr.jmp 0 :: [Instr.hlt]).flatMap encode).length ≤ 256 := by decide
theorem witness_stepRuns_bytes : let s := (atPc 253).storeBytes 253 [0x82, 0x00, 0x08]
    s.pc.toNat + (Instr.ldi 0 8).width ≤ 256 ∧
    ∀ (k : Nat) (h : k < (encode (.ldi 0 8)).length), s.memRead (BitVec.ofNat 8 (s.pc.toNat + k)) = (encode (.ldi 0 8))[k] := by decide
theorem witness_stepRuns_fetch : let s := load [0x54, 0x08] State.reset
    s.running = true ∧ fetchDecode s = .ok (.jmp 8) := ⟨rfl, rfl⟩
theorem witness_unknownOpcode : (atPc 255).running = true ∧ (atPc 255).memRead (atPc 255).pc ∉ knownOpcodes := by decide
theorem witness_unknownOpcode_known : let s := load [0x47, 0x08] State.reset; let f : FaultReport := ⟨.registerOutOfRange, 8⟩
    s.memRead s.pc ∈ knownOpcodes ∧ step s = .next (fatalStop f s) ∧ s.fault ≠ some f ∧ (fatalStop f s).fault = some f := ⟨by decide, rfl, by decide, rfl⟩
theorem witness_operandBytes_255 : let s := (atPc 255).memWrite 255 0x47
    s.running = true ∧ s.memRead s.pc ∈ knownOpcodes ∧ s.pc.toNat + operandCount (s.memRead s.pc) > 255 := by decide
theorem witness_operandBytes_254 : let s := (atPc 254).memWrite 254 0x82
    s.running = true ∧ s.memRead s.pc ∈ knownOpcodes ∧ s.pc.toNat + operandCount (s.memRead s.pc) > 255 := by decide
theorem witness_stoppedCore : State.reset.stop.running = false := rfl
theorem witness_firstFault_some : State.reset.running = true ∧ firstFault State.reset = some ⟨.unknownOpcode, 0⟩ := by decide
theorem witness_firstFault_some_last : let s := (atPc 253).storeBytes 253 [0x82, 0x07, 0xFF]
    s.running = true ∧ firstFault s = some ⟨.pcOutOfRange, 253⟩ := by decide
theorem witness_firstFault_none : let s := (atPc 252).storeBytes 252 [0x82, 0x07, 0xFF]
    s.running = true ∧ firstFault s = none := by decide
theorem witness_faultingStep : let s := load [0x45, 0x08] State.reset; let f : FaultReport := ⟨.registerOutOfRange, 8⟩
    step s = .next (fatalStop f s) ∧ s.fault ≠ some f ∧ (fatalStop f s).fault = some f := ⟨rfl, by decide, rfl⟩
theorem witness_registerOperand : (8 : Byte).toNat > 7 ∧ (255 : Byte).toNat > 7 := by decide
theorem witness_stackRange : (State.reset.setSp 0).sp = 0 ∧ (6 : Reg) ≠ 7 ∧ (State.reset.setSp 255).sp = 255 ∧
    (State.reset.memWrite 244 255).memRead (State.reset.memWrite 244 255).sp = 255 := by decide
theorem witness_seqThree : (atPc 253).pc.toNat + 3 > 255 ∧ (atPc 255).pc.toNat + 3 > 255 := by decide
theorem witness_seqTwo : let s := atPc 254
    s.pc.toNat + 2 > 255 ∧ s.sp ≠ 0 ∧ (if (7 : Reg) = 7 then s.memRead s.sp else s.sp) ≠ 255 ∧
    (if (6 : Reg) = 7 then s.memRead s.sp else s.sp) ≠ 255 ∧ s.fl ≠ .equal ∧ (s.setFl .equal).fl = .equal := by decide
theorem witness_threeByteEffects : (atPc 252).pc.toNat + 3 ≤ 255 ∧ (atPc 0).pc.toNat + 3 ≤ 255 := by decide
theorem witness_prnEffect : (atPc 253).pc.toNat + 2 ≤ 255 := by decide
theorem witness_pushCallEffects : let s := (atPc 253).setSp 1
    s.sp ≠ 0 ∧ s.pc.toNat + 2 ≤ 255 := by decide
theorem witness_popEffect : let s := (atPc 253).setSp 254
    (0 : Reg) ≠ 7 ∧ s.sp ≠ 255 ∧ s.pc.toNat + 2 ≤ 255 := by decide
theorem witness_popR7Effect : let s := ((atPc 253).setSp 255).memWrite 255 254
    s.memRead s.sp ≠ 255 ∧ s.pc.toNat + 2 ≤ 255 := by decide
theorem witness_retEffect : ((atPc 255).setSp 254).sp ≠ 255 := by decide
theorem witness_cmpClauses : let s := (State.reset.setReg 0 128).setReg 1 127
    (s.reg 0).toNat = (s.reg 0).toNat ∧ (s.reg 0).toNat > (s.reg 1).toNat ∧ (s.reg 1).toNat < (s.reg 0).toNat := by decide
theorem witness_jeqEffect_taken : let s := (atPc 254).setFl .equal
    s.fl ≠ .equal → s.pc.toNat + 2 ≤ 255 := by decide
theorem witness_jeqEffect_notTaken : let s := (atPc 253).setFl .less
    s.fl ≠ .equal ∧ (s.fl ≠ .equal → s.pc.toNat + 2 ≤ 255) := by decide
theorem witness_jneEffect_taken : let s := atPc 254
    s.fl = .equal → s.pc.toNat + 2 ≤ 255 := by decide
theorem witness_jneEffect_notTaken : let s := (atPc 253).setFl .equal
    s.fl = .equal ∧ (s.fl = .equal → s.pc.toNat + 2 ≤ 255) := by decide
theorem witness_jumpOutcomes : let s := (atPc 250).setFl .equal; let u := atPc 250
    s.fl = .equal ∧ s.pc.toNat + 2 ≤ 255 ∧ (u.fl = .unset ∨ u.fl = .greater ∨ u.fl = .less) ∧ u.pc.toNat + 5 ≤ 255 ∧
    u.reg 0 = u.reg 1 ∧ u.reg 0 ≠ u.reg 7 := by decide
theorem witness_jumpOutcomes_unset : let s := (State.reset.stop)
    step s = .next s ∧ s.fl = .unset := ⟨rfl, rfl⟩
theorem witness_flags_unwritten : (∀ a b, Instr.hlt ≠ .cmp a b) ∧ exec .hlt State.reset = .next (State.reset.stop.setPc 1) := ⟨by simp, rfl⟩
theorem witness_flags_unread : (∀ a, Instr.hlt ≠ .jeq a) ∧ (∀ a, Instr.hlt ≠ .jne a) ∧ exec .hlt State.reset = .next (State.reset.stop.setPc 1) := ⟨by simp, by simp, rfl⟩
theorem witness_sameButFlags : SameButFlags State.reset (State.reset.setFl .less) ∧
    core.run 1 State.reset = .next (fatalStop ⟨.unknownOpcode, 0⟩ State.reset) := ⟨⟨rfl, by decide⟩, rfl⟩
theorem witness_running_step : let s := load [0x54, 0x00] State.reset
    step s = .next s ∧ s.running = true := ⟨rfl, rfl⟩
theorem witness_running_load : (load [0x01] State.reset).running = true := rfl
theorem witness_running_otherInstr : Instr.jmp 0 ≠ .hlt ∧ exec (.jmp 0) State.reset = .next State.reset := ⟨by decide, rfl⟩
theorem witness_running_stopped : State.reset.stop.running = false ∧ RunEndsIn State.reset.stop State.reset.stop := ⟨rfl, 0, rfl⟩
theorem witness_memory_written : let s := load [0x45, 0x07] State.reset; let t := HostOp.apply .step s
    step s = .next t ∧ t.memRead 243 ≠ s.memRead 243 := ⟨rfl, by decide⟩
theorem witness_memory_unwritten : (∀ a, Instr.hlt ≠ .push a) ∧ (∀ a, Instr.hlt ≠ .call a) ∧ exec .hlt State.reset = .next (State.reset.stop.setPc 1) := ⟨by simp, by simp, rfl⟩
theorem witness_memory_beyondLoad : ([0x01] : List Byte).length ≤ (1 : Byte).toNat := by decide
theorem witness_memory_unread : (∀ a, Instr.push 0 ≠ .pop a) ∧ Instr.push 0 ≠ .ret ∧
    exec (.push 0) State.reset = .next ((State.reset.push 243 0).setPc 2) := ⟨by simp, by decide, rfl⟩
theorem witness_outGrows : let s := load [0x47, 0x07] State.reset
    step s = .next ((s.emitOut 244).setPc 2) := rfl
theorem witness_pushThenPop : let s := (atPc 251).setSp 1
    s.sp ≠ 0 ∧ s.pc.toNat + 4 ≤ 255 := by decide
theorem witness_callThenRet : let s := (atPc 253).setSp 1; let t := (s.push 0 255).setPc 0
    s.sp ≠ 0 ∧ s.pc.toNat + 2 ≤ 255 ∧ exec (.call 0) s = .next t ∧ t.sp = t.sp ∧ t.memRead t.sp = t.memRead t.sp := ⟨by decide, by decide, rfl, rfl, rfl⟩
theorem witness_pushedByte : let s := ((atPc 6).setSp 9).setReg 0 1
    s.sp.toNat = s.pc.toNat + 3 ∧ s.running = true ∧ (0 : Reg) ≠ 7 ∧ s.reg 0 = 0x01 := by decide
theorem witness_pushedByte_top : let s := (atPc 252).setSp 255
    s.sp.toNat = s.pc.toNat + 3 := by decide
theorem witness_loadImage : (List.replicate 256 (1 : Byte)).length ≤ 256 ∧ (255 : Nat) < (List.replicate 256 (1 : Byte)).length ∧
    ([] : List Byte).length ≤ (0 : Byte).toNat := by
  rw [List.length_replicate]
  decide
theorem witness_overlongLoad : (List.replicate 257 (1 : Byte)).length > 256 ∧ State.reset.fault = none ∧
    (fatalStop ⟨.loadOverflow, 1⟩ State.reset).fault ≠ none := by
  rw [List.length_replicate]
  decide
theorem witness_runNoOp : State.reset.stop.running = false := rfl
theorem witness_runEnds : let s := load [0x01] State.reset
    RunEndsIn s (s.stop.setPc 1) ∧ s.running = true := ⟨⟨1, rfl⟩, rfl⟩
theorem witness_runEnds_fault : RunEndsIn State.reset (fatalStop ⟨.unknownOpcode, 0⟩ State.reset) := ⟨1, rfl⟩
theorem witness_jumpToItself : let s := ((atPc 254).storeBytes 254 [0x54, 0x04]).setReg 4 254
    s.running = true ∧ s.pc.toNat + 1 ≤ 255 ∧ s.memRead s.pc = 0x54 ∧ s.memRead (s.pc + 1) = regByte 4 ∧ s.reg 4 = s.pc := by decide
theorem witness_invariant_step : StateInv State.reset ∧ step State.reset = .next (fatalStop ⟨.unknownOpcode, 0⟩ State.reset) := ⟨⟨rfl, (fun _ h => nomatch h), rfl⟩, rfl⟩
theorem witness_reachable : Reachable State.reset ∧ Reachable (fatalStop ⟨.unknownOpcode, 0⟩ State.reset) := ⟨⟨[], rfl⟩, ⟨[.step], rfl⟩⟩
theorem witness_reachable_stops : let s := HostOp.apply .step (load [0x01] State.reset); let t := fatalStop ⟨.unknownOpcode, 0⟩ State.reset
    Reachable s ∧ s.running = false ∧ Reachable t ∧ FaultStop t := ⟨⟨[.load [0x01], .step], rfl⟩, rfl, ⟨[.step], rfl⟩, ⟨rfl, by decide⟩⟩
theorem witness_latchedFault : let s := fatalStop ⟨.unknownOpcode, 0⟩ State.reset
    StateInv s ∧ s.fault = some ⟨.unknownOpcode, 0⟩ := ⟨⟨rfl, fun _ _ => ⟨rfl, rfl⟩, rfl⟩, rfl⟩

end Sys2Proof.Tests
end

section
/-! PROOFS of the rules of 10_state.md: what writes FL, RUNNING and MEM, and what reads them.

That an instruction does not read a field is a statement about two states which differ in that field only. Each of the
relations below is such a statement's relation; `Congruence` collects what they share, and `Congruence.exec` runs an
instruction on two related states once, for all of them. -/

namespace Sys2Proof.Machine

variable {R : State → State → Prop} {s t u : State} {i : Instr}

/-! ## What the operations write -/

theorem State.memRead_congr (h : t.mem = s.mem) (x : Byte) : t.memRead x = s.memRead x := by
  rw [State.memRead, h, State.memRead]

/-- FL after an instruction: as before it, or what a CMP stored. -/
theorem exec_flag (h : exec i s = .next t) :
    t.fl = s.fl ∨ ∃ p q : Reg, i = .cmp (regByte p) (regByte q) ∧ t.fl = compareFlag (s.reg p) (s.reg q) := by
  rcases exec_cases h with ⟨f, -, rfl⟩ | he
  · exact .inl rfl
  · exact he.flag

/-- Memory after an instruction, whether it faults or not. -/
theorem FaultOr.memory (h : FaultOr s t (Effect i s t)) :
    t.mem = s.mem ∨ ∃ (r : Reg) (v : Byte), (i = .push (regByte r) ∨ i = .call (regByte r)) ∧
      t.mem = (s.memWrite (s.sp - 1) v).mem := by
  rcases h with ⟨f, -, rfl⟩ | he
  · exact .inl rfl
  · exact he.memory

theorem exec_keepsMem (hpush : ∀ a, i ≠ .push a) (hcall : ∀ a, i ≠ .call a) (h : exec i s = .next t) :
    KeepsMem s t := by
  rcases (exec_cases h).memory with hm | ⟨r, v, rfl | rfl, -⟩
  · exact State.memRead_congr hm
  · exact absurd rfl (hpush _)
  · exact absurd rfl (hcall _)

/-- A cell that a step changes is the one below SP, and the step runs a PUSH or a CALL. -/
theorem step_memRead_ne {x : Byte} (h : step s = .next t) (hx : t.memRead x ≠ s.memRead x) :
    x = s.sp - 1 ∧
      ∃ r : Reg, fetchDecode s = .ok (.push (regByte r)) ∨ fetchDecode s = .ok (.call (regByte r)) := by
  rcases step_cases h with ⟨-, rfl⟩ | ⟨-, f, -, rfl⟩ | ⟨-, i, hd, he⟩
  · exact absurd rfl hx
  · exact absurd rfl hx
  · rcases he.memory with hm | ⟨r, v, hi, hm⟩
    · exact absurd (State.memRead_congr hm x) hx
    · have hcell : x = s.sp - 1 := by
        by_contra hne
        rw [State.memRead_congr hm, State.memRead_memWrite, if_neg hne] at hx
        exact hx rfl
      refine ⟨hcell, r, ?_⟩
      rcases hi with rfl | rfl
      · exact .inl hd
      · exact .inr hd

/-- All that `load` can do: store its bytes, or refuse them whole, with a fatal stop where no fault is latched. -/
theorem load_cases (bytes : List Byte) (s : State) :
    (bytes.length ≤ 256 ∧ load bytes s = s.storeBytes 0 bytes) ∨
    (256 < bytes.length ∧ s.fault = none ∧
      load bytes s = fatalStop ⟨.loadOverflow, BitVec.ofNat 8 (bytes.length % 256)⟩ s) ∨
    (256 < bytes.length ∧ s.fault ≠ none ∧ load bytes s = s) := by
  by_cases hlen : bytes.length ≤ 256
  · exact .inl ⟨hlen, if_pos hlen⟩
  · cases hf : s.fault with
    | none => exact .inr (.inl ⟨Nat.not_le.mp hlen, rfl, by simp [load, hlen, hf]⟩)
    | some f => exact .inr (.inr ⟨Nat.not_le.mp hlen, by simp, by simp [load, hlen, hf]⟩)

theorem load_running (bytes : List Byte) (h : (load bytes s).running = true) : s.running = true := by
  rcases load_cases bytes s with ⟨-, hl⟩ | ⟨-, -, hl⟩ | ⟨-, -, hl⟩
  · rwa [hl, State.storeBytes_frame] at h
  · rw [hl] at h
    cases h
  · rwa [hl] at h

theorem load_memRead_beyond (bytes : List Byte) (s : State) {x : Byte} (hx : bytes.length ≤ x.toNat) :
    (load bytes s).memRead x = s.memRead x := by
  rcases load_cases bytes s with ⟨hlen, hl⟩ | ⟨-, -, hl⟩ | ⟨-, -, hl⟩
  · rw [hl, State.memRead_storeBytes _ _ _ (by simpa using hlen)]
    simp [hx]
  · rw [hl, memRead_fatalStop]
  · rw [hl]

/-- A run that starts in a stopped core ends where it starts, under any fuel. -/
theorem runFuel_stopped (h : s.running = false) (n : Nat) : runFuel n s = some s := by
  cases n <;> simp [runFuel, h]

/-! ## Relations that every operation keeps -/

/-- The updates that the instructions' meanings are composed of. -/
inductive Update where
  | setReg (r : Reg) (v : Byte)
  | setPc (p : Byte)
  | setFl (f : FlagValue)
  | memWrite (a v : Byte)
  | emitOut (v : Byte)
  | stop
  | fatalStop (f : FaultReport)

/-- The state operation an update stands for. -/
def Update.apply : Update → State → State
  | .setReg r v, s => s.setReg r v
  | .setPc p, s => s.setPc p
  | .setFl f, s => s.setFl f
  | .memWrite a v, s => s.memWrite a v
  | .emitOut v, s => s.emitOut v
  | .stop, s => s.stop
  | .fatalStop f, s => Machine.fatalStop f s

/-- A relation whose two states have the same registers and PC, and which every update keeps. -/
structure Congruence (R : State → State → Prop) : Prop where
  regs : ∀ {s u}, R s u → s.regs = u.regs
  pc : ∀ {s u}, R s u → s.pc = u.pc
  update : ∀ (op : Update) {s u}, R s u → R (op.apply s) (op.apply u)

/-- Both computations answer a next state, and the two states are related. -/
def NextRel (R : State → State → Prop) (x y : Result) : Prop :=
  ∃ t t', x = .next t ∧ y = .next t' ∧ R t t'

theorem NextRel.next (h : R t u) : NextRel R (.next t) (.next u) :=
  ⟨t, u, rfl, rfl, h⟩

/-- The second computation's answer, for a known answer of the first. -/
theorem NextRel.answer {x y : Result} (h : NextRel R x y) (hx : x = .next t) : ∃ t', y = .next t' ∧ R t t' := by
  obtain ⟨t₀, t', hx₀, hy, hr⟩ := h
  obtain rfl : t₀ = t := Host.Outcome.next.inj (hx₀.symm.trans hx)
  exact ⟨t', hy, hr⟩

namespace Congruence

theorem reg (hR : Congruence R) (h : R s u) (r : Reg) : s.reg r = u.reg r := by
  rw [State.reg, hR.regs h, State.reg]

theorem sp (hR : Congruence R) (h : R s u) : s.sp = u.sp :=
  hR.reg h spReg

theorem setReg (hR : Congruence R) (h : R s u) (r : Reg) (v : Byte) : R (s.setReg r v) (u.setReg r v) :=
  hR.update (.setReg r v) h

theorem setPc (hR : Congruence R) (h : R s u) (p : Byte) : R (s.setPc p) (u.setPc p) :=
  hR.update (.setPc p) h

theorem setFl (hR : Congruence R) (h : R s u) (f : FlagValue) : R (s.setFl f) (u.setFl f) :=
  hR.update (.setFl f) h

theorem emitOut (hR : Congruence R) (h : R s u) (v : Byte) : R (s.emitOut v) (u.emitOut v) :=
  hR.update (.emitOut v) h

theorem stop (hR : Congruence R) (h : R s u) : R s.stop u.stop :=
  hR.update .stop h

theorem setSp (hR : Congruence R) (h : R s u) (v : Byte) : R (s.setSp v) (u.setSp v) :=
  hR.setReg h spReg v

theorem push (hR : Congruence R) (h : R s u) (p v : Byte) : R (s.push p v) (u.push p v) :=
  hR.update (.memWrite p v) (hR.setSp h p)

theorem raise (hR : Congruence R) (h : R s u) (k : FaultKind) (info : Byte) :
    NextRel R (Machine.raise k info s) (Machine.raise k info u) :=
  .next (hR.update (.fatalStop ⟨k, info⟩) h)

/-! The checks go the same way in related states. -/

theorem withReg (hR : Congruence R) (h : R s u) (a : Byte) {rule rule' : Reg → Result}
    (hrule : ∀ r, NextRel R (rule r) (rule' r)) :
    NextRel R (Machine.withReg a s rule) (Machine.withReg a u rule') := by
  by_cases ha : a.toNat < 8
  · obtain ⟨r, rfl⟩ := exists_regByte ha
    simpa using hrule r
  · rw [withReg_raise (Nat.not_lt.mp ha), withReg_raise (Nat.not_lt.mp ha)]
    exact hR.raise h _ _

theorem withSeq (hR : Congruence R) (h : R s u) (k : Nat) {rule rule' : Byte → Result}
    (hrule : ∀ p, NextRel R (rule p) (rule' p)) :
    NextRel R (Machine.withSeq k s rule) (Machine.withSeq k u rule') := by
  rw [Machine.withSeq, Machine.withSeq, hR.pc h]
  split
  · exact hR.raise h _ _
  · exact hrule _

theorem withPushRoom (hR : Congruence R) (h : R s u) {rule rule' : Byte → Result}
    (hrule : ∀ p, NextRel R (rule p) (rule' p)) :
    NextRel R (Machine.withPushRoom s rule) (Machine.withPushRoom u rule') := by
  rw [Machine.withPushRoom, Machine.withPushRoom, hR.sp h]
  split
  · exact hR.raise h _ _
  · exact hrule _

theorem withPopRoom (hR : Congruence R) (h : R s u) (v : Byte) {rule rule' : Byte → Result}
    (hrule : ∀ p, NextRel R (rule p) (rule' p)) :
    NextRel R (Machine.withPopRoom v s rule) (Machine.withPopRoom v u rule') := by
  rw [Machine.withPopRoom, Machine.withPopRoom]
  split
  · exact hR.raise h _ _
  · exact hrule _

theorem aluRule (hR : Congruence R) (h : R s u) (op : AluOp) (a b : Byte) :
    NextRel R (Machine.aluRule op a b s) (Machine.aluRule op a b u) := by
  refine hR.withReg h a fun d => hR.withReg h b fun r => hR.withSeq h 3 fun p => ?_
  rw [hR.reg h d, hR.reg h r]
  exact .next (hR.setPc (hR.setReg h _ _) _)

theorem jumpTo (hR : Congruence R) (h : R s u) (r : Reg) :
    NextRel R (Machine.jumpTo r s) (Machine.jumpTo r u) := by
  rw [Machine.jumpTo, Machine.jumpTo, hR.reg h r]
  exact .next (hR.setPc h _)

theorem notTaken (hR : Congruence R) (h : R s u) : NextRel R (Machine.notTaken s) (Machine.notTaken u) :=
  hR.withSeq h 2 fun p => .next (hR.setPc h p)

/-- An instruction keeps related states related, if they agree on memory or it is not POP or RET, and if they agree on
whether FL is Equal or it is not JEQ or JNE. -/
theorem exec (hR : Congruence R) (h : R s u) (i : Instr)
    (hmem : u.mem = s.mem ∨ ((∀ a, i ≠ .pop a) ∧ i ≠ .ret))
    (hfl : u.fl.isEqual = s.fl.isEqual ∨ ((∀ a, i ≠ .jeq a) ∧ ∀ a, i ≠ .jne a)) :
    NextRel R (Machine.exec i s) (Machine.exec i u) := by
  cases i with
  | ldi a b => exact hR.withReg h a fun r => hR.withSeq h 3 fun p => .next (hR.setPc (hR.setReg h r _) p)
  | prn a =>
    simp only [Machine.exec, execPrn]
    refine hR.withReg h a fun r => hR.withSeq h 2 fun p => ?_
    rw [hR.reg h r]
    exact .next (hR.setPc (hR.emitOut h _) p)
  | hlt =>
    rw [execHlt_next, execHlt_next, hR.pc h]
    exact .next (hR.setPc (hR.stop h) _)
  | mul a b => exact hR.aluRule h .mul a b
  | add a b => exact hR.aluRule h .add a b
  | push a =>
    simp only [Machine.exec, execPush]
    refine hR.withReg h a fun r => hR.withPushRoom h fun p => hR.withSeq h 2 fun n => ?_
    rw [hR.reg (hR.setSp h p) r]
    exact .next (hR.setPc (hR.push h p _) n)
  | pop a =>
    have hread := State.memRead_congr (hmem.resolve_right fun hne => hne.1 a rfl)
    have hptr (r : Reg) : popPointer r u = popPointer r s := by
      rw [popPointer, popPointer, hread, hR.sp h]
    simp only [Machine.exec, execPop]
    refine hR.withReg h a fun r => ?_
    rw [hptr, hread, hR.sp h]
    exact hR.withPopRoom h _ fun p => hR.withSeq h 2 fun n =>
      .next (hR.setPc (hR.setSp (hR.setReg h r _) p) n)
  | call a =>
    simp only [Machine.exec, execCall]
    refine hR.withReg h a fun r => hR.withPushRoom h fun p => hR.withSeq h 2 fun n => ?_
    rw [hR.reg (hR.push h p n) r]
    exact .next (hR.setPc (hR.push h p n) _)
  | ret =>
    have hread := State.memRead_congr (hmem.resolve_right fun hne => hne.2 rfl)
    rw [Machine.exec, Machine.exec, execRet, execRet, hread, hR.sp h]
    exact hR.withPopRoom h _ fun p => .next (hR.setPc (hR.setSp h p) _)
  | cmp a b =>
    simp only [Machine.exec, execCmp]
    refine hR.withReg h a fun p => hR.withReg h b fun q => hR.withSeq h 3 fun n => ?_
    rw [hR.reg h p, hR.reg h q]
    exact .next (hR.setPc (hR.setFl h _) n)
  | jmp a => exact hR.withReg h a fun r => hR.jumpTo h r
  | jeq a =>
    have hflag := hfl.resolve_right fun hne => hne.1 a rfl
    simp only [Machine.exec, execJeq]
    refine hR.withReg h a fun r => ?_
    rw [hflag]
    split
    · exact hR.jumpTo h r
    · exact hR.notTaken h
  | jne a =>
    have hflag := hfl.resolve_right fun hne => hne.2 a rfl
    simp only [Machine.exec, execJne]
    refine hR.withReg h a fun r => ?_
    rw [hflag]
    split
    · exact hR.notTaken h
    · exact hR.jumpTo h r

end Congruence

/-! ## States that differ in one field -/

/-- The two states differ at most in FL. -/
def SameButFl (s u : State) : Prop :=
  u.setFl s.fl = s

/-- The two states differ at most in RUNNING. -/
def SameButRunning (s u : State) : Prop :=
  { u with running := s.running } = s

/-- The two states differ at most in memory. -/
def SameButMem (s u : State) : Prop :=
  { u with mem := s.mem } = s

theorem sameButFl_congruence : Congruence SameButFl where
  regs h := (congrArg State.regs h).symm
  pc h := (congrArg State.pc h).symm
  update op _ _ h := by
    have hop := congrArg op.apply h
    cases op <;> exact hop

theorem sameButRunning_congruence : Congruence SameButRunning where
  regs h := (congrArg State.regs h).symm
  pc h := (congrArg State.pc h).symm
  update op _ _ h := by
    have hop := congrArg op.apply h
    cases op <;> exact hop

theorem sameButMem_congruence : Congruence SameButMem where
  regs h := (congrArg State.regs h).symm
  pc h := (congrArg State.pc h).symm
  update op _ _ h := by
    have hop := congrArg op.apply h
    cases op <;> exact hop

/-- An update other than a write of FL leaves FL alone, and a write of FL makes it the same in both states. -/
theorem Update.apply_fl (op : Update) :
    (∀ s : State, (op.apply s).fl = s.fl) ∨ ∃ f, ∀ s : State, (op.apply s).fl = f := by
  cases op with
  | setFl f => exact .inr ⟨f, fun _ => rfl⟩
  | _ => exact .inl fun _ => rfl

theorem sameButFlags_congruence : Congruence SameButFlags where
  regs h := sameButFl_congruence.regs h.1
  pc h := sameButFl_congruence.pc h.1
  update op s u h := by
    refine ⟨sameButFl_congruence.update op h.1, ?_⟩
    rcases op.apply_fl with hfl | ⟨f, hfl⟩
    · rw [hfl, hfl]
      exact h.2
    · rw [hfl, hfl]

theorem SameButFlags.isEqual_eq (h : SameButFlags s u) : u.fl.isEqual = s.fl.isEqual := by
  rw [Bool.eq_iff_iff, FlagValue.isEqual_iff, FlagValue.isEqual_iff]
  exact h.2.symm

/-! ## Steps of states that differ in FL only -/

theorem State.bytesAt_congr (h : u.mem = s.mem) (a n : Nat) : u.bytesAt a n = s.bytesAt a n := by
  induction n generalizing a with
  | zero => rfl
  | succ n ih => rw [State.bytesAt, State.bytesAt, ih, State.memRead_congr h]

/-- Fetch reads memory and PC only. -/
theorem fetchDecode_congr (hmem : u.mem = s.mem) (hpc : u.pc = s.pc) : fetchDecode u = fetchDecode s := by
  rw [fetchDecode, fetchDecode, fetchWindow, fetchWindow, State.bytesAt_congr hmem, hpc]

/-- A step keeps the two states such a pair. -/
theorem SameButFlags.step (h : SameButFlags s u) : NextRel SameButFlags (Machine.step s) (Machine.step u) := by
  have hmem : u.mem = s.mem := (congrArg State.mem h.1 :)
  have hpc : u.pc = s.pc := (congrArg State.pc h.1 :)
  have hrun : u.running = s.running := (congrArg State.running h.1 :)
  have hfetch := fetchDecode_congr hmem hpc
  by_cases hr : s.running = true
  · cases hd : fetchDecode s with
    | ok i =>
      rw [step_ok hr hd, step_ok (hrun.trans hr) (hfetch.trans hd)]
      exact sameButFlags_congruence.exec h i (.inl hmem) (.inl h.isEqual_eq)
    | error f =>
      rw [step_error hr hd, step_error (hrun.trans hr) (hfetch.trans hd)]
      exact .next (sameButFlags_congruence.update (.fatalStop f) h)
  · have hr' : s.running = false := by simpa using hr
    rw [step_stopped hr', step_stopped (hrun.trans hr')]
    exact .next h

theorem core_run_succ (h : step s = .next t) (n : Nat) : core.run (n + 1) s = core.run n t := by
  have h' : core.step s = .next t := h
  simp only [Host.Core.run, h']

/-- So do any number of steps. -/
theorem SameButFlags.run (n : Nat) {s u : State} (h : SameButFlags s u) :
    NextRel SameButFlags (core.run n s) (core.run n u) := by
  induction n generalizing s u with
  | zero => exact .next h
  | succ n ih =>
    obtain ⟨t, t', hs, hu, ht⟩ := h.step
    rw [core_run_succ hs, core_run_succ hu]
    exact ih ht

/-! ## The obligations -/

/-- Settles O32: an instruction on two states that differ in FL, and an induction on the number of steps. -/
theorem flagsWrittenByCmpReadByConditionalJumps : Obligations.FlagsWrittenByCmpReadByConditionalJumps := by
  refine ⟨fun i s t hcmp h => ?_, fun f s => fatalStop_fl s f, fun i s t f hjeq hjne h => ?_,
    fun n s u s' hsu h => (hsu.run n).answer h⟩
  · rcases exec_flag h with hfl | ⟨p, q, rfl, -⟩
    · exact hfl
    · exact absurd rfl (hcmp _ _)
  · have hsame : SameButFl s (s.setFl f) := rfl
    exact (sameButFl_congruence.exec hsame i (.inl rfl) (.inr ⟨hjeq, hjne⟩)).answer h

/-- Settles O33, clause by clause from what a step, a load and an instruction can do. -/
theorem runningClearedByHltAndFaults : Obligations.RunningClearedByHltAndFaults := by
  refine ⟨⟨fun s => rfl, fun s t h ht => ?_, fun bytes s => load_running bytes⟩,
    ⟨fun s => ⟨_, execHlt_next s, rfl⟩, fun f s => fatalStop_running s f, fun i s t hne h => ?_⟩,
    fun s hr => ⟨step_stopped hr, ⟨0, runFuel_stopped hr 0⟩, ?_⟩, fun i s t b h => ?_⟩
  · rcases step_cases h with ⟨-, rfl⟩ | ⟨hr, -⟩ | ⟨hr, -⟩
    · exact ht
    · exact hr
    · exact hr
  · rcases exec_cases h with ⟨f, -, hf⟩ | he
    · exact .inr ⟨f, hf⟩
    · obtain ⟨-, -, hrun⟩ := he.control
      exact .inl (hrun hne)
  · rintro t ⟨n, hn⟩
    exact Option.some.inj (hn.symm.trans (runFuel_stopped hr n))
  · have hsame : SameButRunning s { s with running := b } := rfl
    exact (sameButRunning_congruence.exec hsame i (.inl rfl) (.inl rfl)).answer h

/-- Settles O34: what a step and a load write, and an instruction on two states that differ in memory. -/
theorem memoryTouchedByTheStackInstructionsOnly : Obligations.MemoryTouchedByTheStackInstructionsOnly := by
  refine ⟨fun s t x => step_memRead_ne, fun i s t => exec_keepsMem,
    fun bytes s x => load_memRead_beyond bytes s, fun i s t m hpop hret h => ?_⟩
  have hsame : SameButMem s { s with mem := m } := rfl
  exact (sameButMem_congruence.exec hsame i (.inr ⟨hpop, hret⟩) (.inl rfl)).answer h

end Sys2Proof.Machine
end

section
/-! PROOFS of the rules of 30_encoding.md. An instruction's opcode byte has the instruction's own row, and that row's format
takes exactly the instruction's operand bytes; so its encoding decodes to it, whatever follows. -/

namespace Sys2Proof

/-- With a row for the opcode byte, the row's format decides the rest. -/
theorem decode_cons_of_opcodeFormat {op : Byte} {f : Format} (h : opcodeFormat op = some f) (rest : List Byte) :
    decode (op :: rest) = takeOperands f rest := by
  simp only [decode, h]

@[simp] theorem takeOperands_operandBytes (i : Instr) (rest : List Byte) :
    takeOperands (formatOf i) (operandBytes i ++ rest) = .ok (i, rest) := by
  cases i <;> rfl

@[simp] theorem decode_encode (i : Instr) (rest : List Byte) : decode (encode i ++ rest) = .ok (i, rest) := by
  calc decode (encode i ++ rest)
    _ = takeOperands (formatOf i) (operandBytes i ++ rest) :=
        decode_cons_of_opcodeFormat (opcodeFormat_opcodeOf i) _
    _ = .ok (i, rest) := takeOperands_operandBytes i rest

/-- Settles O1: each row's bytes are the encoding of its instruction. -/
theorem opcodeTableRowsDecode : Obligations.OpcodeTableRowsDecode := by
  intro a b rest
  exact ⟨decode_encode .hlt rest, decode_encode .ret rest,
    decode_encode (.prn a) rest, decode_encode (.push a) rest, decode_encode (.pop a) rest,
    decode_encode (.call a) rest, decode_encode (.jmp a) rest, decode_encode (.jeq a) rest,
    decode_encode (.jne a) rest,
    decode_encode (.mul a b) rest, decode_encode (.add a b) rest, decode_encode (.cmp a b) rest,
    decode_encode (.ldi a b) rest⟩

end Sys2Proof
end

section
/-! PROOFS of the rules of 40_control_cycle.md about the opcode check of a step and about `run` on a stopped core.

The decoder's table has a row exactly for the 13 opcodes. So the fetch of any other byte raises UnknownOpcode, and the fetch
of one of the 13 can fail only for an operand byte that lies beyond memory; no instruction's rule raises UnknownOpcode. -/

namespace Sys2Proof

/-- The decoder's table and the list of R85 name the same opcodes. -/
theorem map_fst_opcodeTable : opcodeTable.map Prod.fst = Machine.knownOpcodes := rfl

theorem opcodeFormat_eq_none_iff {op : Byte} : opcodeFormat op = none ↔ op ∉ Machine.knownOpcodes := by
  rw [opcodeFormat, List.lookup_eq_none_iff, ← map_fst_opcodeTable, List.mem_map]
  simp only [bne_iff_ne, ne_eq, eq_comm (a := op), not_exists, not_and]

theorem decode_cons_of_notMem {op : Byte} (h : op ∉ Machine.knownOpcodes) (rest : List Byte) :
    decode (op :: rest) = .error (.unknownOpcode op) := by
  simp only [decode, opcodeFormat_eq_none_iff.mpr h]

/-- Once a format is found, the only failure left is that the bytes end too early. -/
theorem takeOperands_error {f : Format} {bytes : List Byte} {e : DecodeError} (h : takeOperands f bytes = .error e) :
    e = .missingByte := by
  unfold takeOperands at h
  split at h <;> cases h <;> rfl

theorem decode_cons_error_of_mem {op : Byte} {rest : List Byte} {e : DecodeError} (hop : op ∈ Machine.knownOpcodes)
    (h : decode (op :: rest) = .error e) : e = .missingByte := by
  cases hf : opcodeFormat op with
  | none => exact absurd hop (opcodeFormat_eq_none_iff.mp hf)
  | some f => exact takeOperands_error ((decode_cons_of_opcodeFormat hf rest).symm.trans h)

end Sys2Proof

namespace Sys2Proof.Machine

variable {s t : State} {f : FaultReport}

/-- R115: the fetch looks at the opcode byte before it asks for any other. -/
theorem fetchDecode_of_notMem (h : s.memRead s.pc ∉ knownOpcodes) :
    fetchDecode s = .error ⟨.unknownOpcode, s.memRead s.pc⟩ := by
  simp only [fetchDecode, fetchWindow_eq, decode_cons_of_notMem h]

/-- R116: the fetch of one of the 13 opcodes fails only for want of an operand byte. -/
theorem fetchDecode_error_of_mem (hop : s.memRead s.pc ∈ knownOpcodes) (h : fetchDecode s = .error f) :
    f = ⟨.pcOutOfRange, s.pc⟩ := by
  rw [fetchDecode, fetchWindow_eq] at h
  cases hd : decode (s.memRead s.pc :: s.bytesAt (s.pc.toNat + 1) 2) with
  | ok r =>
    rw [hd] at h
    cases h
  | error e =>
    obtain rfl := decode_cons_error_of_mem hop hd
    rw [hd] at h
    exact (Except.error.inj h).symm

/-- A step that raises a fault is that fault's fatal stop, raised by the fetch or by an instruction's rule. -/
theorem step_raises (h : step s = .next t) (hs : s.fault ≠ some f) (ht : t.fault = some f) :
    t = fatalStop f s ∧ (fetchDecode s = .error f ∨ RuleKind f.kind) := by
  rcases step_cases h with ⟨-, rfl⟩ | ⟨-, f', hd, rfl⟩ | ⟨-, i, -, ⟨f', hk, rfl⟩ | he⟩
  · exact absurd ht hs
  · obtain rfl : f' = f := Option.some.inj ht
    exact ⟨rfl, .inl hd⟩
  · obtain rfl : f' = f := Option.some.inj ht
    exact ⟨rfl, .inr hk⟩
  · obtain ⟨hfault, -, -⟩ := he.control
    exact absurd (hfault.symm.trans ht) hs

theorem RuleKind.ne_unknownOpcode {k : FaultKind} (h : RuleKind k) : k ≠ .unknownOpcode := by
  rcases h with rfl | rfl | rfl <;> decide

/-! ## The obligations -/

/-- Settles O6: the fetch of a byte outside the table, and the two places a step's fault can come from. -/
theorem unknownOpcodeStopsTheCore : Obligations.UnknownOpcodeStopsTheCore := by
  refine ⟨fun s hr hop => step_error hr (fetchDecode_of_notMem hop), fun s t f hop h hs ht => ?_⟩
  obtain ⟨-, hd | hk⟩ := step_raises h hs ht
  · rw [fetchDecode_error_of_mem hop hd]
    simp
  · exact hk.ne_unknownOpcode

/-- Settles O42: HLT and a fatal stop leave RUNNING = 0, and a run that starts so ends where it starts. -/
theorem runOnAStoppedCoreIsANoOp : Obligations.RunOnAStoppedCoreIsANoOp :=
  ⟨fun n _ hr => runFuel_stopped hr n,
    fun n s => ⟨_, execHlt_next s, runFuel_stopped rfl n⟩,
    fun n s f => runFuel_stopped (fatalStop_running s f) n⟩

end Sys2Proof.Machine
end

section
/-! PROOFS of the rules about the bytes of an instruction: the decoder answers an instruction only for that instruction's own
bytes, so a fetch gives `i` exactly where the bytes of `i` stand at PC; and `load` puts an image's bytes at their addresses. -/

namespace Sys2Proof

theorem length_encode (i : Instr) : (encode i).length = i.width := rfl

theorem width_pos (i : Instr) : 0 < i.width := Nat.succ_pos _

theorem width_le_three (i : Instr) : i.width ≤ 3 := by
  cases i <;> simp [Instr.width, encode, operandBytes]

/-- A row's format takes the operand bytes of an instruction that has this row's opcode. -/
theorem cons_eq_encode_of_takeOperands {op : Byte} {f : Format} {bytes rest : List Byte} {i : Instr}
    (hrow : (op, f) ∈ opcodeTable) (h : takeOperands f bytes = .ok (i, rest)) : op :: bytes = encode i ++ rest := by
  simp only [opcodeTable, List.mem_cons, Prod.mk.injEq, List.not_mem_nil, or_false] at hrow
  match f, bytes, h with
  | .z _, _, rfl =>
    simp only [Format.z.injEq, reduceCtorEq, and_false, or_false, false_or] at hrow
    rcases hrow with ⟨rfl, rfl⟩ | ⟨rfl, rfl⟩ <;> rfl
  | .r _, _ :: _, rfl =>
    simp only [Format.r.injEq, reduceCtorEq, and_false, false_or] at hrow
    rcases hrow with ⟨rfl, rfl⟩ | ⟨rfl, rfl⟩ | ⟨rfl, rfl⟩ | ⟨rfl, rfl⟩ | ⟨rfl, rfl⟩ | ⟨rfl, rfl⟩ | ⟨rfl, rfl⟩ <;> rfl
  | .rr _, _ :: _ :: _, rfl =>
    simp only [Format.rr.injEq, reduceCtorEq, and_false, or_false, false_or] at hrow
    rcases hrow with ⟨rfl, rfl⟩ | ⟨rfl, rfl⟩ | ⟨rfl, rfl⟩ <;> rfl
  | .ri _, _ :: _ :: _, rfl =>
    simp only [Format.ri.injEq, reduceCtorEq, and_false, or_false] at hrow
    obtain ⟨rfl, rfl⟩ := hrow
    rfl

theorem eq_encode_of_decode {bytes rest : List Byte} {i : Instr} (h : decode bytes = .ok (i, rest)) :
    bytes = encode i ++ rest := by
  cases bytes with
  | nil => cases h
  | cons op bytes =>
    cases hf : opcodeFormat op with
    | none => simp [decode, hf] at h
    | some f =>
      rw [decode_cons_of_opcodeFormat hf] at h
      exact cons_eq_encode_of_takeOperands (mem_of_opcodeFormat hf) h

/-- Settles O2. -/
theorem encodedInstructionDecodesBack : Obligations.EncodedInstructionDecodesBack :=
  decode_encode

/-- Settles O3: the row that the look-up found has the instruction's opcode, and its format took the operand bytes. -/
theorem decodedBytesAreTheEncoding : Obligations.DecodedBytesAreTheEncoding :=
  fun _ _ _ => eq_encode_of_decode

end Sys2Proof

namespace Sys2Proof.Machine

variable {s : State} {i : Instr}

/-- The bytes of `bs` stand in memory at `a` and up. -/
def State.Holds (s : State) (a : Nat) (bs : List Byte) : Prop :=
  a + bs.length ≤ 256 ∧ ∀ (k : Nat) (h : k < bs.length), s.memRead (BitVec.ofNat 8 (a + k)) = bs[k]

theorem State.holds_cons {a : Nat} {b : Byte} {bs : List Byte} (hb : s.memRead (BitVec.ofNat 8 a) = b)
    (h : s.Holds (a + 1) bs) : s.Holds a (b :: bs) := by
  obtain ⟨hlen, hbs⟩ := h
  refine ⟨by rw [List.length_cons]; omega, fun k hk => ?_⟩
  cases k with
  | zero => exact hb
  | succ k =>
    rw [List.getElem_cons_succ, ← hbs k (by simpa using hk)]
    congr 2
    omega

/-- Where a run of bytes from `a` begins with `bs`, `bs` stands in memory at `a`. -/
theorem State.holds_of_bytesAt {n a : Nat} {bs rest : List Byte} (ha : a ≤ 256) (h : s.bytesAt a n = bs ++ rest) :
    s.Holds a bs := by
  induction bs generalizing n a with
  | nil => exact ⟨ha, fun k hk => absurd hk (Nat.not_lt_zero k)⟩
  | cons b bs ih =>
    cases n with
    | zero => simp [State.bytesAt] at h
    | succ n =>
      rw [State.bytesAt] at h
      split at h
      · rename_i hmax
        rw [Config.maxValue_eq] at hmax
        obtain ⟨hb, hbs⟩ := List.cons_eq_cons.mp h
        exact State.holds_cons hb (ih (Nat.succ_le_succ hmax) hbs)
      · cases h

/-- Fetch gives the instruction whose bytes stand at PC, and no other. -/
theorem fetchDecode_eq_ok_iff : fetchDecode s = .ok i ↔ s.Holds s.pc.toNat (encode i) := by
  constructor
  · intro h
    unfold fetchDecode at h
    split at h
    · rename_i rest hd
      cases h
      exact State.holds_of_bytesAt (Nat.le_of_lt s.pc.isLt) (eq_encode_of_decode hd)
    · cases h
    · cases h
  · rintro ⟨hlen, hbytes⟩
    obtain ⟨rest, hr⟩ := s.bytesAt_eq_append 3 s.pc.toNat (encode i) hlen (width_le_three i) hbytes
    rw [fetchDecode, fetchWindow, hr, decode_encode]

/-- Settles O5. -/
theorem stepRunsTheDecodedInstruction : Obligations.StepRunsTheDecodedInstruction :=
  ⟨fun _ _ hwidth hbytes => fetchDecode_eq_ok_iff.mpr ⟨hwidth, hbytes⟩, fun _ _ => step_ok⟩

theorem load_of_le {bytes : List Byte} (h : bytes.length ≤ 256) (s : State) : load bytes s = s.storeBytes 0 bytes :=
  if_pos h

/-- Byte `k` of a loaded image is in cell `k`. -/
theorem load_memRead {bytes : List Byte} (hlen : bytes.length ≤ 256) (s : State) (k : Nat) (hk : k < bytes.length) :
    (load bytes s).memRead (BitVec.ofNat 8 k) = bytes[k] := by
  have hnat : (BitVec.ofNat 8 k).toNat = k := by
    rw [BitVec.toNat_ofNat]
    exact Nat.mod_eq_of_lt (by omega)
  rw [load_of_le hlen, State.memRead_storeBytes _ _ _ (by simpa using hlen), hnat]
  simp [hk]

/-- A part of a loaded image stands in memory at its place in the image. -/
theorem load_holds {before bs after : List Byte} (hlen : (before ++ bs ++ after).length ≤ 256) (s : State) :
    (load (before ++ bs ++ after) s).Holds before.length bs := by
  have hsum := hlen
  simp only [List.length_append] at hsum
  refine ⟨by omega, fun k hk => ?_⟩
  rw [load_memRead hlen s _ (by simp only [List.length_append]; omega)]
  simp [hk]

/-- Settles O4: the instruction's bytes are a part of the image, so they stand at the address where the core fetches. -/
theorem loadedInstructionIsFetchedAtItsAddress : Obligations.LoadedInstructionIsFetchedAtItsAddress := by
  intro before after i s hlen
  have himage : (before ++ i :: after).flatMap encode = before.flatMap encode ++ encode i ++ after.flatMap encode := by
    simp
  rw [himage] at hlen ⊢
  obtain ⟨hend, hbytes⟩ := load_holds hlen s
  have hpc : (BitVec.ofNat 8 (before.flatMap encode).length).toNat = (before.flatMap encode).length := by
    rw [BitVec.toNat_ofNat]
    have := width_pos i
    rw [length_encode] at hend
    exact Nat.mod_eq_of_lt (by omega)
  rw [fetchDecode_eq_ok_iff, State.setPc_pc, hpc]
  exact ⟨hend, hbytes⟩

end Sys2Proof.Machine
end

section
/-! PROOFS of the rules about faults (60_exceptions.md).

`ruleFault` names the first of an instruction's own checks that fails, and `exec_reports` says that this fault is what the
instruction raises. The priority table, read at the bytes of an instruction, is `ruleFault` of it (`tableFault_of_encode`);
what is left of the table is what the fetch raises. -/

namespace Sys2Proof

/-- The operand count in an opcode byte, and the width it makes (R80, R86). -/
theorem width_eq_operandCount (i : Instr) : i.width = operandCount (opcodeOf i) + 1 :=
  match i with
  | .ldi a b => (Laws.Widths.ldi a b).2
  | .prn a => (Laws.Widths.prn a).2
  | .hlt => Laws.Widths.hlt.2
  | .mul a b => (Laws.Widths.mul a b).2
  | .add a b => (Laws.Widths.add a b).2
  | .push a => (Laws.Widths.push a).2
  | .pop a => (Laws.Widths.pop a).2
  | .call a => (Laws.Widths.call a).2
  | .ret => Laws.Widths.ret.2
  | .cmp a b => (Laws.Widths.cmp a b).2
  | .jmp a => (Laws.Widths.jmp a).2
  | .jeq a => (Laws.Widths.jeq a).2
  | .jne a => (Laws.Widths.jne a).2

/-- Two bytes are enough for every format. -/
theorem takeOperands_two (f : Format) (a b : Byte) : ∃ i rest, takeOperands f [a, b] = .ok (i, rest) := by
  cases f <;> exact ⟨_, _, rfl⟩

/-- One of the 13 opcodes and any two bytes begin with an instruction. -/
theorem exists_encode_of_mem {op : Byte} (h : op ∈ Machine.knownOpcodes) (a b : Byte) :
    ∃ i rest, [op, a, b] = encode i ++ rest := by
  cases hf : opcodeFormat op with
  | none => exact absurd h (opcodeFormat_eq_none_iff.mp hf)
  | some f =>
    obtain ⟨i, rest, hi⟩ := takeOperands_two f a b
    exact ⟨i, rest, eq_encode_of_decode ((decode_cons_of_opcodeFormat hf _).trans hi)⟩

end Sys2Proof

namespace Sys2Proof.Machine

variable {s t : State} {i : Instr} {f : FaultReport} {o : Option FaultReport}

/-! ## The faults of an instruction's own checks -/

/-- The fault of a register operand (R176). -/
def regFault (a : Byte) : Option FaultReport :=
  if a.toNat > 7 then some ⟨.registerOutOfRange, a⟩ else none

/-- The fault of `Seq(k)` (R175). -/
def seqFault (k : Nat) (s : State) : Option FaultReport :=
  if s.pc.toNat + k > 255 then some ⟨.pcOutOfRange, s.pc⟩ else none

/-- The fault of a push (R172). -/
def pushFault (s : State) : Option FaultReport :=
  if s.sp = 0 then some ⟨.stackOutOfRange, 0⟩ else none

/-- The fault of a pop whose pointer holds `u` (R172). -/
def popFault (u : Byte) : Option FaultReport :=
  if u = 255 then some ⟨.stackOutOfRange, 255⟩ else none

/-- The first check of an instruction's rule that fails, in the order of the rule. -/
def ruleFault : Instr → State → Option FaultReport
  | .ldi a _, s => (regFault a).or (seqFault 3 s)
  | .prn a, s => (regFault a).or (seqFault 2 s)
  | .hlt, _ => none
  | .mul a b, s => (regFault a).or ((regFault b).or (seqFault 3 s))
  | .add a b, s => (regFault a).or ((regFault b).or (seqFault 3 s))
  | .push a, s => (regFault a).or ((pushFault s).or (seqFault 2 s))
  | .pop a, s => (regFault a).or ((popFault (if a = 7 then s.memRead s.sp else s.sp)).or (seqFault 2 s))
  | .call a, s => (regFault a).or ((pushFault s).or (seqFault 2 s))
  | .ret, s => popFault s.sp
  | .cmp a b, s => (regFault a).or ((regFault b).or (seqFault 3 s))
  | .jmp a, _ => regFault a
  | .jeq a, s => (regFault a).or (if s.fl = .equal then none else seqFault 2 s)
  | .jne a, s => (regFault a).or (if s.fl = .equal then seqFault 2 s else none)

theorem regFault_of_lt {a : Byte} (h : 7 < a.toNat) : regFault a = some ⟨.registerOutOfRange, a⟩ :=
  if_pos h

@[simp] theorem regFault_regByte (r : Reg) : regFault (regByte r) = none := by
  rw [regFault, regByte_toNat, if_neg (by omega)]

theorem seqFault_of_lt {k : Nat} (h : 255 < s.pc.toNat + k) : seqFault k s = some ⟨.pcOutOfRange, s.pc⟩ :=
  if_pos h

theorem seqFault_of_le {k : Nat} (h : s.pc.toNat + k ≤ 255) : seqFault k s = none :=
  if_neg (Nat.not_lt.mpr h)

theorem pushFault_of_eq (h : s.sp = 0) : pushFault s = some ⟨.stackOutOfRange, 0⟩ :=
  if_pos h

theorem pushFault_of_ne (h : s.sp ≠ 0) : pushFault s = none :=
  if_neg h

@[simp] theorem popFault_255 : popFault 255#8 = some ⟨.stackOutOfRange, 255#8⟩ := rfl

theorem popFault_of_ne {u : Byte} (h : u ≠ 255) : popFault u = none :=
  if_neg h

@[simp] theorem regByte_eq_seven_iff (r : Reg) : regByte r = 7#8 ↔ r = 7 := by
  rw [← BitVec.toNat_inj, regByte_toNat, Fin.ext_iff]
  rfl

/-! ## What an instruction raises -/

/-- `x` is the fatal stop of the fault `o` names, or, if it names none, a next state with FAULT and ERR as in `s`. -/
def Reports (o : Option FaultReport) (s : State) (x : Result) : Prop :=
  (∀ f, o = some f → x = .next (fatalStop f s)) ∧
    (o = none → ∃ t, x = .next t ∧ t.fault = s.fault ∧ t.err = s.err)

theorem Reports.fatal (f : FaultReport) (s : State) : Reports (some f) s (.next (fatalStop f s)) :=
  ⟨fun _ hf => by rw [Option.some.inj hf], fun hf => nomatch hf⟩

theorem Reports.noFault (hfault : t.fault = s.fault) (herr : t.err = s.err) : Reports none s (.next t) :=
  ⟨fun _ hf => (nomatch hf), fun _ => ⟨t, rfl, hfault, herr⟩⟩

theorem Reports.exists_next {x : Result} (h : Reports o s x) : ∃ t, x = .next t := by
  cases ho : o with
  | none =>
    obtain ⟨t, ht, -⟩ := h.2 ho
    exact ⟨t, ht⟩
  | some f => exact ⟨_, h.1 f ho⟩

theorem Reports.withReg {a : Byte} {rule : Reg → Result} (h : ∀ r, a = regByte r → Reports o s (rule r)) :
    Reports ((regFault a).or o) s (Machine.withReg a s rule) := by
  by_cases ha : a.toNat < 8
  · obtain ⟨r, rfl⟩ := exists_regByte ha
    simpa using h r rfl
  · have ha' : 8 ≤ a.toNat := Nat.not_lt.mp ha
    rw [withReg_raise ha', regFault_of_lt ha']
    exact .fatal _ s

theorem Reports.withSeq {k : Nat} {rule : Byte → Result} (h : ∀ p, Reports none s (rule p)) :
    Reports (seqFault k s) s (Machine.withSeq k s rule) := by
  by_cases hk : s.pc.toNat + k ≤ 255
  · rw [withSeq_ok hk, seqFault_of_le hk]
    exact h _
  · rw [withSeq_raise (Nat.not_le.mp hk), seqFault_of_lt (Nat.not_le.mp hk)]
    exact .fatal _ s

theorem Reports.withPushRoom {rule : Byte → Result} (h : ∀ p, Reports o s (rule p)) :
    Reports ((pushFault s).or o) s (Machine.withPushRoom s rule) := by
  by_cases hs : s.sp = 0
  · rw [withPushRoom_raise hs, pushFault_of_eq hs]
    exact .fatal _ s
  · rw [withPushRoom_ok hs, pushFault_of_ne hs]
    exact h _

theorem Reports.withPopRoom {u : Byte} {rule : Byte → Result} (h : ∀ p, Reports o s (rule p)) :
    Reports ((popFault u).or o) s (Machine.withPopRoom u s rule) := by
  by_cases hu : u = 255
  · subst hu
    rw [withPopRoom_raise (by decide)]
    exact .fatal _ s
  · rw [withPopRoom_ok (by bv_omega), popFault_of_ne hu]
    exact h _

theorem Reports.aluRule (op : AluOp) (a b : Byte) (s : State) :
    Reports ((regFault a).or ((regFault b).or (seqFault 3 s))) s (Machine.aluRule op a b s) :=
  .withReg fun _ _ => .withReg fun _ _ => .withSeq fun _ => .noFault rfl rfl

/-- An instruction raises the fault of its first check that fails, and none if none fails. -/
theorem exec_reports (i : Instr) (s : State) : Reports (ruleFault i s) s (exec i s) := by
  cases i with
  | ldi a b =>
    rw [ruleFault, exec, execLdi]
    exact .withReg fun _ _ => .withSeq fun _ => .noFault rfl rfl
  | prn a =>
    rw [ruleFault, exec, execPrn]
    exact .withReg fun _ _ => .withSeq fun _ => .noFault rfl rfl
  | hlt => exact .noFault rfl rfl
  | mul a b => exact .aluRule .mul a b s
  | add a b => exact .aluRule .add a b s
  | push a =>
    rw [ruleFault, exec, execPush]
    exact .withReg fun _ _ => .withPushRoom fun _ => .withSeq fun _ => .noFault rfl rfl
  | pop a =>
    rw [ruleFault, exec, execPop]
    refine .withReg fun r ha => ?_
    have hptr : popPointer r s = if a = 7 then s.memRead s.sp else s.sp := by
      rw [ha]
      exact if_congr (regByte_eq_seven_iff r).symm rfl rfl
    rw [← hptr]
    exact .withPopRoom fun _ => .withSeq fun _ => .noFault rfl rfl
  | call a =>
    rw [ruleFault, exec, execCall]
    exact .withReg fun _ _ => .withPushRoom fun _ => .withSeq fun _ => .noFault rfl rfl
  | ret =>
    rw [ruleFault, exec, execRet, ← Option.or_none (o := popFault s.sp)]
    exact .withPopRoom fun _ => .noFault rfl rfl
  | cmp a b =>
    rw [ruleFault, exec, execCmp]
    exact .withReg fun _ _ => .withReg fun _ _ => .withSeq fun _ => .noFault rfl rfl
  | jmp a =>
    rw [ruleFault, exec, execJmp, ← Option.or_none (o := regFault a)]
    exact .withReg fun _ _ => .noFault rfl rfl
  | jeq a =>
    rw [ruleFault, exec, execJeq]
    refine .withReg fun _ _ => ?_
    simp only [FlagValue.isEqual_iff]
    split
    · exact .noFault rfl rfl
    · exact .withSeq fun _ => .noFault rfl rfl
  | jne a =>
    rw [ruleFault, exec, execJne]
    refine .withReg fun _ _ => ?_
    simp only [FlagValue.isEqual_iff]
    split
    · exact .withSeq fun _ => .noFault rfl rfl
    · exact .noFault rfl rfl

theorem exec_raises (h : ruleFault i s = some f) : exec i s = .next (fatalStop f s) :=
  (exec_reports i s).1 f h

/-! ## The priority table -/

/-- The entries of the priority table below the operand range check. -/
def tableFault (s : State) (op a b : Byte) : Option FaultReport :=
  (if op ∈ regAOpcodes then regFault a else none).or
    ((if op ∈ regBOpcodes then regFault b else none).or
      ((stackFault s op a).or ((seqOffset op s.fl).bind fun k => seqFault k s)))

theorem firstFault_of_notMem (h : s.memRead s.pc ∉ knownOpcodes) :
    firstFault s = some ⟨.unknownOpcode, s.memRead s.pc⟩ :=
  if_pos h

theorem firstFault_of_lt (hop : s.memRead s.pc ∈ knownOpcodes)
    (h : 255 < s.pc.toNat + operandCount (s.memRead s.pc)) : firstFault s = some ⟨.pcOutOfRange, s.pc⟩ :=
  (if_neg (not_not_intro hop)).trans (if_pos h)

theorem ite_and_eq_regFault_or (p : Prop) [Decidable p] (a : Byte) (o : Option FaultReport) :
    (if p ∧ a.toNat > 7 then some ⟨.registerOutOfRange, a⟩ else o) = (if p then regFault a else none).or o := by
  by_cases hp : p <;> by_cases ha : a.toNat > 7 <;> simp [regFault, hp, ha]

theorem firstFault_of_le (hop : s.memRead s.pc ∈ knownOpcodes)
    (h : s.pc.toNat + operandCount (s.memRead s.pc) ≤ 255) :
    firstFault s = tableFault s (s.memRead s.pc) (s.memRead (s.pc + 1)) (s.memRead (s.pc + 2)) := by
  rw [firstFault, if_neg (not_not_intro hop), if_neg (Nat.not_lt.mpr h), ite_and_eq_regFault_or,
    ite_and_eq_regFault_or, tableFault]
  cases stackFault s (s.memRead s.pc) (s.memRead (s.pc + 1)) with
  | some f => rfl
  | none => cases seqOffset (s.memRead s.pc) s.fl <;> rfl

/-! The table's entries that an opcode alone does not decide. -/

theorem stackFault_push (s : State) (a c : Byte) : stackFault s (opcodeOf (.push c)) a = pushFault s := by
  simp [stackFault, opcodeOf, pushFault]

theorem stackFault_call (s : State) (a c : Byte) : stackFault s (opcodeOf (.call c)) a = pushFault s := by
  simp [stackFault, opcodeOf, pushFault]

theorem stackFault_pop (s : State) (a c : Byte) :
    stackFault s (opcodeOf (.pop c)) a = popFault (if a = 7 then s.memRead s.sp else s.sp) := by
  by_cases ha : a = 7
  · subst ha
    simp [stackFault, opcodeOf, popFault]
  · have ha' : ¬ a = 7#8 := ha
    simp [stackFault, opcodeOf, popFault, ha']

theorem stackFault_ret (s : State) (a : Byte) : stackFault s (opcodeOf .ret) a = popFault s.sp := by
  simp [stackFault, opcodeOf, popFault]

theorem seqOffset_jeq (s : State) (c : Byte) :
    (seqOffset (opcodeOf (.jeq c)) s.fl).bind (fun k => seqFault k s) =
      if s.fl = .equal then none else seqFault 2 s := by
  by_cases hf : s.fl = .equal <;> simp [seqOffset, opcodeOf, hf]

theorem seqOffset_jne (s : State) (c : Byte) :
    (seqOffset (opcodeOf (.jne c)) s.fl).bind (fun k => seqFault k s) =
      if s.fl = .equal then seqFault 2 s else none := by
  by_cases hf : s.fl = .equal <;> simp [seqOffset, opcodeOf, hf]

/-- The table, read at the bytes of an instruction, lists the checks of the instruction's rule. -/
theorem tableFault_of_encode {op a b : Byte} {rest : List Byte} (h : [op, a, b] = encode i ++ rest) :
    tableFault s op a b = ruleFault i s := by
  cases i with
  | ldi c d => cases h; rfl
  | prn c => cases h; rfl
  | hlt => cases h; rfl
  | mul c d => cases h; rfl
  | add c d => cases h; rfl
  | push c => cases h; rw [tableFault, stackFault_push]; rfl
  | pop c => cases h; rw [tableFault, stackFault_pop]; rfl
  | call c => cases h; rw [tableFault, stackFault_call]; rfl
  | ret => cases h; rw [tableFault, stackFault_ret]; exact Option.or_none
  | cmp c d => cases h; rfl
  | jmp c => cases h; exact Option.or_none
  | jeq c => cases h; rw [tableFault, seqOffset_jeq]; rfl
  | jne c => cases h; rw [tableFault, seqOffset_jne]; rfl

/-- The bytes at PC, read with wrap-around, as the fetch addresses them. -/
theorem State.memRead_add (s : State) (k : Nat) :
    s.memRead (BitVec.ofNat 8 (s.pc.toNat + k)) = s.memRead (s.pc + BitVec.ofNat 8 k) := by
  rw [BitVec.ofNat_add, BitVec.ofNat_toNat, BitVec.setWidth_eq]

/-- The bytes at PC and after it stand in memory as far as address 255. -/
theorem State.holds_of_bytes {bs rest : List Byte} (hlen : s.pc.toNat + bs.length ≤ 256)
    (h : [s.memRead s.pc, s.memRead (s.pc + 1), s.memRead (s.pc + 2)] = bs ++ rest) : s.Holds s.pc.toNat bs := by
  refine ⟨hlen, fun k hk => ?_⟩
  have hget : [s.memRead s.pc, s.memRead (s.pc + 1), s.memRead (s.pc + 2)][k]? = some bs[k] := by
    rw [h, List.getElem?_append_left hk, List.getElem?_eq_getElem hk]
  rw [State.memRead_add]
  match k with
  | 0 => simpa using hget
  | 1 => exact Option.some.inj hget
  | 2 => exact Option.some.inj hget
  | k + 3 => cases hget

/-- A fetch that gives an instruction had its opcode and all its operand bytes. -/
theorem le_of_fetchDecode_ok (h : fetchDecode s = .ok i) : s.pc.toNat + operandCount (s.memRead s.pc) ≤ 255 := by
  obtain ⟨hlen, hbytes⟩ := fetchDecode_eq_ok_iff.mp h
  have hopcode : s.memRead s.pc = opcodeOf i := by
    rw [← BitVec.add_zero s.pc]
    exact (s.memRead_add 0).symm.trans (hbytes 0 (width_pos i))
  rw [length_encode, width_eq_operandCount, ← hopcode] at hlen
  omega

/-- One of the 13 opcodes at PC is the opcode of an instruction `i` whose operand bytes are those after PC; and the fetch
gives `i`, if none of them lies beyond address 255, and raises PCOutOfRange otherwise (R116). -/
theorem fetchDecode_of_mem (hop : s.memRead s.pc ∈ knownOpcodes) :
    ∃ i rest, [s.memRead s.pc, s.memRead (s.pc + 1), s.memRead (s.pc + 2)] = encode i ++ rest ∧
      fetchDecode s = if s.pc.toNat + operandCount (s.memRead s.pc) ≤ 255 then .ok i
        else .error ⟨.pcOutOfRange, s.pc⟩ := by
  obtain ⟨i, rest, henc⟩ := exists_encode_of_mem hop (s.memRead (s.pc + 1)) (s.memRead (s.pc + 2))
  refine ⟨i, rest, henc, ?_⟩
  split
  · rename_i hle
    have hwidth : i.width = operandCount (s.memRead s.pc) + 1 := by
      rw [width_eq_operandCount, (List.cons_eq_cons.mp henc).1]
    exact fetchDecode_eq_ok_iff.mpr (State.holds_of_bytes (by rw [length_encode]; omega) henc)
  · rename_i hgt
    cases hd : fetchDecode s with
    | ok j => exact absurd (le_of_fetchDecode_ok hd) hgt
    | error f => rw [fetchDecode_error_of_mem hop hd]

theorem fetchDecode_of_lt (hop : s.memRead s.pc ∈ knownOpcodes)
    (h : 255 < s.pc.toNat + operandCount (s.memRead s.pc)) : fetchDecode s = .error ⟨.pcOutOfRange, s.pc⟩ := by
  obtain ⟨i, rest, -, hd⟩ := fetchDecode_of_mem hop
  rw [hd, if_neg (Nat.not_le.mpr h)]

/-- A running core's step raises the fault that the priority table names, and none if it names none. -/
theorem step_reports (hr : s.running = true) : Reports (firstFault s) s (step s) := by
  by_cases hop : s.memRead s.pc ∈ knownOpcodes
  · by_cases hle : s.pc.toNat + operandCount (s.memRead s.pc) ≤ 255
    · obtain ⟨i, rest, henc, hd⟩ := fetchDecode_of_mem hop
      rw [if_pos hle] at hd
      rw [step_ok hr hd, firstFault_of_le hop hle, tableFault_of_encode henc]
      exact exec_reports i s
    · rw [step_error hr (fetchDecode_of_lt hop (Nat.not_le.mp hle)), firstFault_of_lt hop (Nat.not_le.mp hle)]
      exact .fatal _ s
  · rw [step_error hr (fetchDecode_of_notMem hop), firstFault_of_notMem hop]
    exact .fatal _ s

/-! ## The obligations -/

/-- Settles O9: the table's upper entries are the fetch's faults, its lower entries the checks of the fetched instruction. -/
theorem stepReportsTheFirstFault : Obligations.StepReportsTheFirstFault :=
  ⟨fun _ f hr => (step_reports hr).1 f, fun _ hr => (step_reports hr).2⟩

/-- Settles O7. -/
theorem operandBytesBeyondMemoryStopTheCore : Obligations.OperandBytesBeyondMemoryStopTheCore :=
  fun _ hr hop h => step_error hr (fetchDecode_of_lt hop h)

/-- Settles O8. -/
theorem stoppedCoreStepsNowhere : Obligations.StoppedCoreStepsNowhere :=
  fun _ => step_stopped

/-- Settles O10: a stopped core stays where it is, and a running one reports a fault or goes on. -/
theorem stepAlwaysAnswersANextState : Obligations.StepAlwaysAnswersANextState := by
  intro s
  by_cases hr : s.running = true
  · exact (step_reports hr).exists_next
  · exact ⟨s, step_stopped (Bool.eq_false_of_not_eq_true hr)⟩

/-- Settles O11, field by field. -/
theorem fatalStopWritesFourThings : Obligations.FatalStopWritesFourThings :=
  fun f s => ⟨fatalStop_running s f, fatalStop_pc s f, fatalStop_fault s f, fatalStop_err s f,
    fun r _ => reg_fatalStop s f r, fun x => memRead_fatalStop s f x, fatalStop_fl s f, fatalStop_out s f⟩

/-- Settles O12: a step that raises a fault is that fault's fatal stop. -/
theorem faultingStepIsPrecise : Obligations.FaultingStepIsPrecise := by
  intro s t f h hs ht
  obtain ⟨rfl, -⟩ := step_raises h hs ht
  exact ⟨rfl, rfl, rfl, rfl, rfl, rfl, rfl⟩

theorem RuleKind.ne_aluOrLoad {k : FaultKind} (h : RuleKind k) : k ≠ .unsupportedALUOp ∧ k ≠ .loadOverflow := by
  rcases h with rfl | rfl | rfl <;> decide

/-- Settles O13: neither the fetch nor an instruction's rule has a fault of these kinds. -/
theorem stepRaisesNoAluOrLoadFault : Obligations.StepRaisesNoAluOrLoadFault := by
  intro s t f h hs ht
  obtain ⟨-, hd | hk⟩ := step_raises h hs ht
  · rcases fetchDecode_error hd with hk | hk <;> simp [hk]
  · exact hk.ne_aluOrLoad

/-- Settles O14: `a` is the first check of each of the eleven rules, and `b` the second of MUL, ADD and CMP. -/
theorem registerOperandAboveSevenRaises : Obligations.RegisterOperandAboveSevenRaises := by
  refine ⟨fun s a b ha => ?_, fun s r b hb => ?_⟩
  · have hfault := regFault_of_lt ha
    refine ⟨?_, ?_, ?_, ?_, ?_, ?_, ?_, ?_, ?_, ?_, ?_⟩ <;> exact exec_raises (by simp [ruleFault, hfault])
  · have hfault := regFault_of_lt hb
    refine ⟨?_, ?_, ?_⟩ <;> exact exec_raises (by simp [ruleFault, hfault])

/-- Settles O15: with the register operand in range, the stack check is the first that fails. -/
theorem stackRangeCheckRaises : Obligations.StackRangeCheckRaises := by
  refine ⟨fun s r hs => ⟨exec_raises ?_, exec_raises ?_⟩, fun s r hr hs => exec_raises ?_,
    fun s hm => exec_raises ?_, fun s hs => exec_raises ?_⟩
  · simp [ruleFault, pushFault_of_eq hs]
  · simp [ruleFault, pushFault_of_eq hs]
  · simp [ruleFault, hr, hs]
  · simp [ruleFault, hm]
  · simp [ruleFault, hs]

/-- Settles O16: with the checks before it passed, `Seq(k)` is the first that fails. -/
theorem sequentialAddressPastTheTopRaises : Obligations.SequentialAddressPastTheTopRaises := by
  refine ⟨fun s r q b h => ?_, fun s r h => ?_⟩
  · have hfault := seqFault_of_lt h
    refine ⟨?_, ?_, ?_, ?_⟩ <;> exact exec_raises (by simp [ruleFault, hfault])
  · have hfault := seqFault_of_lt h
    refine ⟨exec_raises ?_, fun hs => ⟨exec_raises ?_, exec_raises ?_⟩, fun hu => exec_raises ?_,
      fun hf => exec_raises ?_, fun hf => exec_raises ?_⟩
    · simp [ruleFault, hfault]
    · simp [ruleFault, hfault, pushFault_of_ne hs]
    · simp [ruleFault, hfault, pushFault_of_ne hs]
    · simp [ruleFault, hfault, popFault_of_ne hu]
    · simp [ruleFault, hfault, hf]
    · simp [ruleFault, hfault, hf]

end Sys2Proof.Machine
end

section
/-! PROOFS of the rules of 10_state.md and 60_exceptions.md that hold along every sequence of host operations.

`applyAll_induction` is the one induction over such a sequence; what is left of each rule is that a step keeps it and that a
load keeps it. -/

namespace Sys2Proof.Machine

variable {s t : State} {f : FaultReport}

/-! ## What keeps the invariant -/

/-- Only a stopped core has a latched fault. -/
theorem StateInv.fault_eq_none (h : StateInv s) (hr : s.running = true) : s.fault = none := by
  cases hf : s.fault with
  | none => rfl
  | some f =>
    obtain ⟨hstop, -⟩ := h.faultStopped f hf
    rw [hr] at hstop
    cases hstop

/-- A change of memory, registers, PC, FL and OUT where no fault is latched. -/
theorem StateInv.of_fault_none (h : StateInv s) (hs : s.fault = none) (hmem : Memory.wf t.mem = true)
    (hfault : t.fault = s.fault) (herr : t.err = s.err) : StateInv t where
  memory := hmem
  faultStopped f hf := by
    rw [hfault, hs] at hf
    cases hf
  report := by rw [herr, hfault, h.report]

theorem StateInv.fatalStop (h : StateInv s) (hs : s.fault = none) (f : FaultReport) :
    StateInv (Machine.fatalStop f s) where
  memory := h.memory
  faultStopped _ _ := ⟨rfl, rfl⟩
  report := by rw [fatalStop_err, fatalStop_fault, h.report, hs]; rfl

theorem StateInv.storeBytes (h : StateInv s) (a : Nat) (bytes : List Byte) : StateInv (s.storeBytes a bytes) := by
  have hmem := State.wf_storeBytes bytes s a h.memory
  rw [State.storeBytes_frame] at hmem ⊢
  exact ⟨hmem, h.faultStopped, h.report⟩

theorem Effect.wf {i : Instr} (he : Effect i s t) (h : Memory.wf s.mem = true) : Memory.wf t.mem = true := by
  rcases he.memory with hm | ⟨r, v, -, hm⟩
  · rwa [hm]
  · rw [hm]
    exact s.wf_memWrite _ v h

theorem StateInv.step (h : StateInv s) (hstep : Machine.step s = .next t) : StateInv t := by
  rcases step_cases hstep with ⟨-, rfl⟩ | ⟨hr, f, -, rfl⟩ | ⟨hr, i, -, ⟨f, -, rfl⟩ | he⟩
  · exact h
  · exact h.fatalStop (h.fault_eq_none hr) f
  · exact h.fatalStop (h.fault_eq_none hr) f
  · obtain ⟨hfault, herr, -⟩ := he.control
    exact h.of_fault_none (h.fault_eq_none hr) (he.wf h.memory) hfault herr

theorem StateInv.load (h : StateInv s) (bytes : List Byte) : StateInv (Machine.load bytes s) := by
  rcases load_cases bytes s with ⟨-, hl⟩ | ⟨-, hs, hl⟩ | ⟨-, -, hl⟩
  · rw [hl]
    exact h.storeBytes 0 bytes
  · rw [hl]
    exact h.fatalStop hs _
  · rwa [hl]

theorem stateInv_reset : StateInv State.reset :=
  ⟨rfl, (fun _ hf => nomatch hf), rfl⟩

/-! ## Sequences of host operations -/

/-- What every step and every load keeps holds after any sequence of them. -/
theorem applyAll_induction {P : State → Prop} (hstep : ∀ {s t}, P s → step s = .next t → P t)
    (hload : ∀ {s}, P s → ∀ bytes, P (load bytes s)) (ops : List HostOp) {s : State} (h : P s) :
    P (applyAll ops s) := by
  induction ops generalizing s with
  | nil => exact h
  | cons op ops ih =>
    cases op with
    | step =>
      obtain ⟨t, ht⟩ := stepAlwaysAnswersANextState s
      have happly : HostOp.step.apply s = t := by simp only [HostOp.apply, ht]
      rw [applyAll, happly]
      exact ih (hstep h ht)
    | load bytes => exact ih (hload h bytes)

theorem StateInv.applyAll (h : StateInv s) (ops : List HostOp) : StateInv (Machine.applyAll ops s) :=
  applyAll_induction StateInv.step StateInv.load ops h

/-- The fault `f` is latched and the core is stopped by it; registers, FL and OUT are those of `s`. -/
structure StoppedBy (f : FaultReport) (s t : State) : Prop where
  inv : StateInv t
  fault : t.fault = some f
  regs : t.regs = s.regs
  fl : t.fl = s.fl
  out : t.out = s.out

theorem StoppedBy.running (h : StoppedBy f s t) : t.running = false :=
  (h.inv.faultStopped f h.fault).1

theorem StoppedBy.pc (h : StoppedBy f s t) : t.pc = 0 :=
  (h.inv.faultStopped f h.fault).2

theorem StoppedBy.err (h : StoppedBy f s t) : t.err = [f] := by
  rw [h.inv.report, h.fault]
  rfl

theorem StoppedBy.step {u : State} (h : StoppedBy f s t) (hstep : Machine.step t = .next u) : StoppedBy f s u := by
  rw [step_stopped h.running] at hstep
  exact Host.Outcome.next.inj hstep ▸ h

theorem StoppedBy.load (h : StoppedBy f s t) (bytes : List Byte) : StoppedBy f s (Machine.load bytes t) := by
  have hinv := h.inv.load bytes
  rcases load_cases bytes t with ⟨-, hl⟩ | ⟨-, ht, -⟩ | ⟨-, -, hl⟩
  · rw [hl, State.storeBytes_frame] at hinv ⊢
    exact ⟨hinv, h.fault, h.regs, h.fl, h.out⟩
  · rw [h.fault] at ht
    cases ht
  · rwa [hl]

/-! ## The obligations -/

/-- Settles O46. -/
theorem resetMeetsTheInvariant : Obligations.ResetMeetsTheInvariant :=
  stateInv_reset

/-- Settles O47, case by case of what a step can do. -/
theorem stepKeepsTheInvariant : Obligations.StepKeepsTheInvariant :=
  fun _ _ => StateInv.step

/-- Settles O48, case by case of what a load can do. -/
theorem loadKeepsTheInvariant : Obligations.LoadKeepsTheInvariant :=
  fun bytes _ h => h.load bytes

/-- Settles O49: the invariant holds at reset and is kept, and the other clauses follow from it. -/
theorem reachableStatesMeetTheInvariant : Obligations.ReachableStatesMeetTheInvariant := by
  rintro s ⟨ops, rfl⟩
  have hinv := stateInv_reset.applyAll ops
  refine ⟨hinv, ?_, ?_, fun hr => ?_, fun ⟨_, hfault⟩ => ?_⟩
  · rw [hinv.report]
    cases (applyAll ops State.reset).fault <;> simp
  · rw [hinv.report]
    cases (applyAll ops State.reset).fault <;> simp
  · by_cases hfault : (applyAll ops State.reset).fault = none
    · exact .inl ⟨hr, hfault⟩
    · exact .inr ⟨hr, hfault⟩
  · obtain ⟨f, hf⟩ := Option.ne_none_iff_exists'.mp hfault
    exact (hinv.faultStopped f hf).2

/-- Settles O50: a core stopped by `f` stays stopped by `f`. -/
theorem latchedFaultIsFinal : Obligations.LatchedFaultIsFinal := by
  intro ops s f hinv hf
  have h : StoppedBy f s (applyAll ops s) :=
    applyAll_induction StoppedBy.step StoppedBy.load ops ⟨hinv, hf, rfl, rfl, rfl⟩
  exact ⟨h.fault, h.err, h.running, h.pc, h.regs, h.fl, h.out⟩

end Sys2Proof.Machine
end

section
/-! PROOFS of the instructions' own rules (41_load_print_halt.md to 44_compare_jump.md). `Laws/Exec.lean` says which state an
instruction answers; here it is said what such a state leaves as it was, once for each way the rules write. -/

namespace Sys2Proof.Machine

variable {s t : State}

/-! ## Arithmetic of bytes -/

theorem toNat_sub_one_add_one {u : Byte} (h : u ≠ 0) : (u - 1).toNat + 1 = u.toNat := by
  bv_omega

theorem toNat_add_one {u : Byte} (h : u ≠ 255) : (u + 1).toNat = u.toNat + 1 := by
  bv_omega

theorem toNat_succ_le {u : Byte} (h : u ≠ 255) : u.toNat + 1 ≤ 255 := by
  bv_omega

/-! ## Frames -/

/-- Every register but those named, every cell, FL, RUNNING, FAULT, ERR and OUT are what they were. -/
def KeepsAllBut (rs : List Reg) (s t : State) : Prop :=
  KeepsRegsBut rs s t ∧ KeepsMem s t ∧ t.fl = s.fl ∧ KeepsControl s t ∧ t.out = s.out

theorem KeepsAllBut.setPc {rs : List Reg} (h : KeepsAllBut rs s t) (p : Byte) : KeepsAllBut rs s (t.setPc p) := h

theorem keepsAllBut_refl (s : State) : KeepsAllBut [] s s :=
  ⟨fun _ _ => rfl, fun _ => rfl, rfl, ⟨rfl, rfl, rfl⟩, rfl⟩

theorem KeepsAllBut.setReg {rs : List Reg} {r : Reg} (h : KeepsAllBut rs s t) (hr : r ∈ rs) (v : Byte) :
    KeepsAllBut rs s (t.setReg r v) := by
  obtain ⟨hregs, hrest⟩ := h
  refine ⟨fun q hq => ?_, hrest⟩
  rw [State.reg_setReg_of_ne t (ne_of_mem_of_not_mem hr hq).symm, hregs q hq]

/-- Registers may be added to those named. -/
theorem KeepsAllBut.mono {rs rs' : List Reg} (h : KeepsAllBut rs s t) (hsub : rs ⊆ rs') : KeepsAllBut rs' s t := by
  obtain ⟨hregs, hrest⟩ := h
  exact ⟨fun q hq => hregs q fun hmem => hq (hsub hmem), hrest⟩

theorem setReg_frame (s : State) (r : Reg) (v p : Byte) : KeepsAllBut [r] s ((s.setReg r v).setPc p) :=
  (((keepsAllBut_refl s).mono (List.nil_subset _)).setReg (by simp) v).setPc p

theorem setSp_frame (s : State) (v p : Byte) : KeepsAllBut [7] s ((s.setSp v).setPc p) :=
  setReg_frame s 7 v p

theorem setPc_frame (s : State) (p : Byte) : KeepsAllBut [] s (s.setPc p) :=
  (keepsAllBut_refl s).setPc p

theorem pop_frame (s : State) (r : Reg) (v w p : Byte) :
    KeepsAllBut [r, 7] s (((s.setReg r v).setSp w).setPc p) :=
  ((((keepsAllBut_refl s).mono (List.nil_subset _)).setReg (by simp) v).setReg (r := 7) (by simp) w).setPc p

theorem push_frame (s : State) (a v p : Byte) :
    KeepsRegsBut [7] s ((s.push a v).setPc p) ∧ KeepsMemBut a s ((s.push a v).setPc p) ∧
      ((s.push a v).setPc p).fl = s.fl ∧ KeepsControl s ((s.push a v).setPc p) ∧
      ((s.push a v).setPc p).out = s.out := by
  refine ⟨fun q hq => ?_, fun x hx => ?_, rfl, ⟨rfl, rfl, rfl⟩, rfl⟩
  · rw [State.reg_setPc, State.reg_push, if_neg fun h => hq (by simp [h, spReg_eq])]
  · rw [State.memRead_setPc, State.memRead_push, if_neg hx]

/-! ## LDI, PRN, HLT -/

/-- Settles O17. -/
theorem ldiLoadsTheImmediate : Obligations.LdiLoadsTheImmediate :=
  fun s r b h => ⟨_, execLdi_next r b h, s.reg_setReg_self r b, toNat_seq h, setReg_frame s r b _⟩

/-- Settles O18. -/
theorem prnEmitsTheRegister : Obligations.PrnEmitsTheRegister :=
  fun _ r h => ⟨_, execPrn_next r h, rfl, toNat_seq h, fun _ _ => rfl, fun _ => rfl, rfl, ⟨rfl, rfl, rfl⟩⟩

/-- Settles O35, case by case of what a step can do: of the effects only PRN's writes OUT. -/
theorem outGrowsByPrnOnly : Obligations.OutGrowsByPrnOnly := by
  intro s t h
  rcases step_cases h with ⟨-, rfl⟩ | ⟨-, f, -, rfl⟩ | ⟨-, i, hd, ⟨f, -, rfl⟩ | he⟩
  · exact .inl rfl
  · exact .inl rfl
  · exact .inl rfl
  · rcases he.output with hout | ⟨r, rfl, hout⟩
    · exact .inl hout
    · exact .inr ⟨r, hd, hout⟩

/-- Settles O19. -/
theorem hltStopsTheCore : Obligations.HltStopsTheCore :=
  fun s => ⟨_, execHlt_next s, rfl, BitVec.toNat_add s.pc 1, fun _ _ => rfl, fun _ => rfl, rfl, rfl, rfl, rfl⟩

/-! ## The ALU -/

/-- Settles O30. -/
theorem aluIntegerLaws : Obligations.AluIntegerLaws := by
  intro u v
  simp only [alu_add, alu_mul]
  refine ⟨BitVec.toNat_add u v, BitVec.toNat_mul u v, BitVec.add_zero u, ?_, BitVec.mul_zero, BitVec.mul_one u,
    BitVec.mul_two, rfl, rfl⟩
  bv_omega

/-- Settles O20. -/
theorem mulWritesTheLowByteOfTheProduct : Obligations.MulWritesTheLowByteOfTheProduct := by
  intro s d r h
  refine ⟨_, execMul_next d r h, ?_, toNat_seq h, setReg_frame s d _ _⟩
  rw [State.reg_setPc, State.reg_setReg_self, alu_mul, BitVec.toNat_mul]

/-- Settles O21. -/
theorem addWritesTheSumModulo256 : Obligations.AddWritesTheSumModulo256 := by
  intro s d r h
  refine ⟨_, execAdd_next d r h, ?_, toNat_seq h, setReg_frame s d _ _⟩
  rw [State.reg_setPc, State.reg_setReg_self, alu_add, BitVec.toNat_add]

/-! ## The stack -/

/-- Settles O22. -/
theorem pushStoresBelowTheOldTop : Obligations.PushStoresBelowTheOldTop := by
  intro s r hs h
  refine ⟨_, execPush_next r hs h, ?_, ?_, toNat_seq h, push_frame s _ _ _⟩
  · rw [State.sp_setPc, State.sp_push, toNat_sub_one_add_one hs]
  · rw [State.memRead_setPc, State.memRead_push, if_pos rfl]
    rfl

/-- Settles O24. -/
theorem callPushesTheReturnAddress : Obligations.CallPushesTheReturnAddress := by
  intro s r hs h
  refine ⟨_, execCall_next r hs h, ?_, ?_, rfl, push_frame s _ _ _⟩
  · rw [State.sp_setPc, State.sp_push, toNat_sub_one_add_one hs]
  · rw [State.memRead_setPc, State.memRead_push, if_pos rfl, toNat_seq h]

theorem popPointer_of_ne {r : Reg} (h : r ≠ 7) (s : State) : popPointer r s = s.sp :=
  if_neg h

theorem popPointer_seven (s : State) : popPointer 7 s = s.memRead s.sp :=
  if_pos rfl

/-- Settles O23. For R7 both writes go to SP, and the second is the one that stays. -/
theorem popLoadsTheTop : Obligations.PopLoadsTheTop := by
  refine ⟨fun s r hr hs h => ?_, fun s hm h => ?_⟩
  · have hptr := popPointer_of_ne hr s
    refine ⟨_, execPop_next r (by rw [hptr]; exact toNat_succ_le hs) h, ?_, ?_, toNat_seq h, pop_frame s r _ _ _⟩
    · rw [State.reg_setPc, State.reg_setSp, spReg_eq, if_neg hr, State.reg_setReg_self]
    · rw [State.sp_setPc, State.sp_setSp, hptr, toNat_add_one hs]
  · have hptr := popPointer_seven s
    refine ⟨_, execPop_next 7 (by rw [hptr]; exact toNat_succ_le hm) h, ?_, toNat_seq h,
      (pop_frame s 7 _ _ _).mono (by simp)⟩
    rw [State.sp_setPc, State.sp_setSp, hptr, toNat_add_one hm]

/-- Settles O25. -/
theorem retPopsIntoPc : Obligations.RetPopsIntoPc := by
  intro s hs
  refine ⟨_, execRet_next (toNat_succ_le hs), rfl, ?_, setSp_frame s _ _⟩
  rw [State.sp_setPc, State.sp_setSp, toNat_add_one hs]

/-! ## Compare and jump -/

theorem compareFlag_eq_greater_iff (u v : Byte) : compareFlag u v = .greater ↔ u.toNat > v.toNat := by
  unfold compareFlag
  split
  · simp [*]
  · split <;> simp [*]

theorem compareFlag_eq_less_iff (u v : Byte) : compareFlag u v = .less ↔ u.toNat < v.toNat := by
  unfold compareFlag
  split
  · simp [*]
  · rename_i hne
    have hne' : u.toNat ≠ v.toNat := fun h => hne (BitVec.eq_of_toNat_eq h)
    split
    · simp only [reduceCtorEq, false_iff]
      omega
    · simp only [true_iff]
      omega

/-- Settles O26. -/
theorem cmpSetsTheFlag : Obligations.CmpSetsTheFlag :=
  fun _ p q h => ⟨_, execCmp_next p q h,
    fun heq => (compareFlag_eq_equal_iff _ _).mpr (BitVec.eq_of_toNat_eq heq),
    (compareFlag_eq_greater_iff _ _).mpr, (compareFlag_eq_less_iff _ _).mpr,
    toNat_seq h, fun _ _ => rfl, fun _ => rfl, ⟨rfl, rfl, rfl⟩, rfl⟩

/-- Settles O27. -/
theorem jmpGoesToTheRegister : Obligations.JmpGoesToTheRegister :=
  fun s r => ⟨_, execJmp_next r s, rfl, setPc_frame s _⟩

/-- JEQ, taken or not. -/
theorem execJeq_next (r : Reg) (h : s.fl ≠ .equal → s.pc.toNat + 2 ≤ 255) :
    exec (.jeq (regByte r)) s =
      .next (s.setPc (if s.fl = .equal then s.reg r else BitVec.ofNat 8 (s.pc.toNat + 2))) := by
  by_cases hf : s.fl = .equal
  · rw [execJeq_taken r hf, if_pos hf]
  · rw [execJeq_notTaken r hf (h hf), if_neg hf]

/-- JNE, taken or not. -/
theorem execJne_next (r : Reg) (h : s.fl = .equal → s.pc.toNat + 2 ≤ 255) :
    exec (.jne (regByte r)) s =
      .next (s.setPc (if s.fl = .equal then BitVec.ofNat 8 (s.pc.toNat + 2) else s.reg r)) := by
  by_cases hf : s.fl = .equal
  · rw [execJne_notTaken r hf (h hf), if_pos hf]
  · rw [execJne_taken r hf, if_neg hf]

/-- Settles O28. -/
theorem jeqJumpsExactlyWhenEqual : Obligations.JeqJumpsExactlyWhenEqual := by
  intro s r h
  refine ⟨_, execJeq_next r h, ?_, setPc_frame s _⟩
  rw [State.setPc_pc]
  split
  · rfl
  · rename_i hf
    exact toNat_seq (h hf)

/-- Settles O29. -/
theorem jneJumpsExactlyWhenNotEqual : Obligations.JneJumpsExactlyWhenNotEqual := by
  intro s r h
  refine ⟨_, execJne_next r h, ?_, setPc_frame s _⟩
  rw [State.setPc_pc]
  split
  · rename_i hf
    exact toNat_seq (h hf)
  · rfl

/-- No step brings Unset about: CMP never stores it, and nothing else writes FL. -/
theorem step_fl_unset (h : step s = .next t) (ht : t.fl = .unset) : s.fl = .unset := by
  rcases step_cases h with ⟨-, rfl⟩ | ⟨-, f, -, rfl⟩ | ⟨-, i, -, ⟨f, -, rfl⟩ | he⟩
  · exact ht
  · exact ht
  · exact ht
  · rcases he.flag with hfl | ⟨p, q, -, hfl⟩
    · rw [← hfl, ht]
    · exact absurd (hfl.symm.trans ht) (compareFlag_ne_unset _ _)

theorem load_fl (bytes : List Byte) (s : State) : (load bytes s).fl = s.fl := by
  rcases load_cases bytes s with ⟨-, hl⟩ | ⟨-, -, hl⟩ | ⟨-, -, hl⟩
  · rw [hl, State.storeBytes_frame]
  · rw [hl, fatalStop_fl]
  · rw [hl]

/-- Settles O31, row by row; in the last row CMP leaves FL Equal exactly on equal registers, and PC + 3. -/
theorem conditionalJumpOutcomes : Obligations.ConditionalJumpOutcomes := by
  refine ⟨fun s r hf => ⟨?_, fun h => ?_⟩, fun s r hf => ?_, ⟨rfl, fun s t => step_fl_unset, load_fl⟩,
    fun s p q h => ?_, fun s p q r h => ?_⟩
  · exact ⟨_, execJeq_taken r hf, rfl⟩
  · exact ⟨_, execJne_notTaken r hf h, toNat_seq h⟩
  · have hne : s.fl ≠ .equal := by
      rcases hf with hf | hf | hf <;> simp [hf]
    exact ⟨⟨_, execJne_taken r hne, rfl⟩, fun h => ⟨_, execJeq_notTaken r hne h, toNat_seq h⟩⟩
  · exact ⟨_, execCmp_next p q h, compareFlag_eq_equal_iff _ _, compareFlag_eq_greater_iff _ _,
      compareFlag_eq_less_iff _ _⟩
  · have hcmp : s.pc.toNat + 3 ≤ 255 := by omega
    have hpc : (BitVec.ofNat 8 (s.pc.toNat + 3)).toNat + 2 = s.pc.toNat + 5 := by rw [toNat_seq hcmp]
    have hlt : s.pc.toNat + 3 + 2 < 256 := Nat.lt_succ_of_le h
    refine ⟨_, _, _, execCmp_next p q hcmp, execJeq_next r fun _ => ?_, execJne_next r fun _ => ?_,
      fun heq => ?_, fun hne => ?_⟩
    · rwa [State.setPc_pc, hpc]
    · rwa [State.setPc_pc, hpc]
    · simp [heq, hlt]
    · simp [hne, hlt]

end Sys2Proof.Machine
end

section
/-! PROOFS of the rules about more than one instruction: a push and the pop, the return or the fetch after it. -/

namespace Sys2Proof.Machine

variable {s t : State}

/-- Settles O36: both halves go through SP - 1, and the pop reads the cell that the push wrote. -/
theorem pushThenPopRestores : Obligations.PushThenPopRestores := by
  intro s r hs h
  have hpush : s.pc.toNat + 2 ≤ 255 := by omega
  have hpc : (BitVec.ofNat 8 (s.pc.toNat + 2)).toNat + 2 ≤ 255 := by rw [toNat_seq hpush]; omega
  have hlow := toNat_sub_one_add_one hs
  have hptr : popPointer r ((s.push (s.sp - 1) (if r = spReg then s.sp - 1 else s.reg r)).setPc
      (BitVec.ofNat 8 (s.pc.toNat + 2))) = s.sp - 1 := by
    by_cases hr : r = spReg <;> simp [popPointer, State.memRead_push, hr]
  refine ⟨_, _, execPush_next r hs hpush, execPop_next r ?_ hpc, fun q _ => ?_, ?_⟩
  · rw [hptr]
    omega
  · rw [hptr, State.reg_setPc, State.reg_setSp]
    split
    · rename_i hq
      simp [hq, State.reg_spReg]
    · rename_i hq
      by_cases hqr : q = r
      · subst hqr
        simp [State.memRead_push, hq]
      · rw [State.reg_setReg_of_ne _ hqr, State.reg_setPc, State.reg_push, if_neg hq]
  · rw [State.setPc_pc, State.setPc_pc, toNat_seq hpush]
    exact toNat_seq h

/-- Settles O37: the RET pops the byte that the CALL pushed. -/
theorem callThenRetReturns : Obligations.CallThenRetReturns := by
  intro s r hs h
  have hlow := toNat_sub_one_add_one hs
  refine ⟨_, execCall_next r hs h, fun u hsp hbyte => ?_⟩
  rw [State.sp_setPc, State.sp_push] at hsp hbyte
  rw [State.memRead_setPc, State.memRead_push, if_pos rfl] at hbyte
  refine ⟨_, execRet_next (by rw [hsp]; omega), ?_, ?_⟩
  · rw [State.setPc_pc, hbyte, toNat_seq h]
  · rw [State.sp_setPc, State.sp_setSp, hsp, BitVec.sub_add_cancel]

/-- HLT is one byte, so it is fetched at every PC. -/
theorem fetchDecode_hlt (h : s.memRead s.pc = 0x01) : fetchDecode s = .ok .hlt :=
  fetchDecode_eq_ok_iff.mpr (State.holds_of_bytes (rest := [s.memRead (s.pc + 1), s.memRead (s.pc + 2)])
    s.pc.isLt (by rw [h]; rfl))

/-- Settles O38: the cell below SP is the one at the PC after the PUSH. -/
theorem pushedByteIsFetchedNext : Obligations.PushedByteIsFetchedNext := by
  intro s r hsp
  have hs : s.sp ≠ 0 := by bv_omega
  have hpc : s.pc.toNat + 2 ≤ 255 := by bv_omega
  have hnext : BitVec.ofNat 8 (s.pc.toNat + 2) = s.sp - 1 := by
    have hlow := toNat_sub_one_add_one hs
    rw [← BitVec.toNat_inj, toNat_seq hpc]
    omega
  have hbyte (v : Byte) : ((s.push (s.sp - 1) v).setPc (s.sp - 1)).memRead (s.sp - 1) = v := by
    rw [State.memRead_setPc, State.memRead_push, if_pos rfl]
  refine ⟨_, execPush_next r hs hpc, ?_, fun hr hr7 hone => ?_⟩
  · rw [hnext]
    exact hbyte _
  · rw [hnext, spReg_eq, if_neg hr7, hone]
    exact step_ok hr (fetchDecode_hlt (hbyte _))

end Sys2Proof.Machine
end

section
/-! PROOFS of the rules of 40_control_cycle.md about `reset`, `load` and `run`. -/

namespace Sys2Proof.Machine

variable {s t u : State}

/-! ## Reset and load -/

/-- Settles O39. -/
theorem resetValues : Obligations.ResetValues :=
  ⟨fun _ => rfl, by decide, rfl, rfl, rfl, rfl, rfl, rfl, fun _ => rfl⟩

/-- Settles O40: the bytes are stored from address 0, and nothing but memory is written. -/
theorem loadWritesTheImage : Obligations.LoadWritesTheImage := by
  intro bytes s hlen
  refine ⟨load_memRead hlen s, fun x => load_memRead_beyond bytes s, ?_⟩
  rw [load_of_le hlen, State.storeBytes_frame]
  exact ⟨fun _ _ => rfl, rfl, rfl, ⟨rfl, rfl, rfl⟩, rfl⟩

/-- Settles O41. -/
theorem overlongLoadIsRefusedWhole : Obligations.OverlongLoadIsRefusedWhole := by
  intro bytes s hlen
  rcases load_cases bytes s with ⟨hle, -⟩ | ⟨-, hs, hl⟩ | ⟨-, hs, hl⟩
  · exact absurd hlen (Nat.not_lt.mpr hle)
  · exact ⟨fun _ => hl, fun hne => absurd hs hne⟩
  · exact ⟨fun hs' => absurd hs' hs, fun _ => hl⟩

/-! ## Run -/

theorem runFuel_zero_running (hr : s.running = true) : runFuel 0 s = none := by
  simp [runFuel, hr]

theorem runFuel_succ_running (hr : s.running = true) (h : step s = .next t) (n : Nat) :
    runFuel (n + 1) s = runFuel n t := by
  simp [runFuel, hr, h]

theorem eq_of_runFuel_stopped {n : Nat} (hr : s.running = false) (h : runFuel n s = some t) : t = s :=
  (Option.some.inj ((runFuel_stopped hr n).symm.trans h)).symm

/-- A run that ends does so in the stopped core it was started in, or by a step from a running state that it reached. -/
theorem runFuel_eq_some (n : Nat) (h : runFuel n s = some t) :
    t.running = false ∧ (s.running = true →
      ∃ (m : Nat) (u : State), core.run m s = .next u ∧ u.running = true ∧ step u = .next t) := by
  induction n generalizing s with
  | zero =>
    cases hr : s.running with
    | false => exact ⟨eq_of_runFuel_stopped hr h ▸ hr, nofun⟩
    | true =>
      rw [runFuel_zero_running hr] at h
      cases h
  | succ n ih =>
    cases hr : s.running with
    | false => exact ⟨eq_of_runFuel_stopped hr h ▸ hr, nofun⟩
    | true =>
      obtain ⟨v, hv⟩ := stepAlwaysAnswersANextState s
      rw [runFuel_succ_running hr hv] at h
      obtain ⟨hstop, hlast⟩ := ih h
      refine ⟨hstop, fun _ => ?_⟩
      cases hrv : v.running with
      | true =>
        obtain ⟨m, u, hm, hu, hut⟩ := hlast hrv
        exact ⟨m + 1, u, (core_run_succ hv m).trans hm, hu, hut⟩
      | false =>
        obtain rfl := eq_of_runFuel_stopped hrv h
        exact ⟨0, s, rfl, hr, hv⟩

/-- A step that stops a running core ran a HLT that left FAULT alone, or was a fatal stop. -/
theorem step_stops (h : step s = .next t) (hr : s.running = true) (ht : t.running = false) :
    (fetchDecode s = .ok .hlt ∧ t.fault = s.fault) ∨ ∃ f, t = fatalStop f s := by
  rcases step_cases h with ⟨hstop, -⟩ | ⟨-, f, -, hf⟩ | ⟨-, i, hd, ⟨f, -, hf⟩ | he⟩
  · rw [hr] at hstop
    cases hstop
  · exact .inr ⟨f, hf⟩
  · exact .inr ⟨f, hf⟩
  · obtain ⟨hfault, -, hrun⟩ := he.control
    by_cases hi : i = .hlt
    · exact .inl ⟨hi ▸ hd, hfault⟩
    · rw [hrun hi, hr] at ht
      cases ht

/-- Settles O43, by induction on the fuel for the last step. -/
theorem runEndsByHltOrFatalStop : Obligations.RunEndsByHltOrFatalStop := by
  rintro s t ⟨n, hn⟩
  obtain ⟨hstop, hlast⟩ := runFuel_eq_some n hn
  refine ⟨hstop, fun hr => ?_⟩
  obtain ⟨m, u, hm, hu, hut⟩ := hlast hr
  exact ⟨m, u, hm, hu, hut, step_stops hut hu hstop⟩

/-- Two runs from one state that both end, end in one state, whatever fuel each had. -/
theorem runFuel_unique {n m : Nat} (hn : runFuel n s = some t) (hm : runFuel m s = some u) : t = u := by
  induction n generalizing s m with
  | zero =>
    cases hr : s.running with
    | false => rw [eq_of_runFuel_stopped hr hn, eq_of_runFuel_stopped hr hm]
    | true =>
      rw [runFuel_zero_running hr] at hn
      cases hn
  | succ n ih =>
    cases hr : s.running with
    | false => rw [eq_of_runFuel_stopped hr hn, eq_of_runFuel_stopped hr hm]
    | true =>
      obtain ⟨v, hv⟩ := stepAlwaysAnswersANextState s
      rw [runFuel_succ_running hr hv] at hn
      cases m with
      | zero =>
        rw [runFuel_zero_running hr] at hm
        cases hm
      | succ m =>
        rw [runFuel_succ_running hr hv] at hm
        exact ih hn hm

/-- Settles O44, by induction on the fuel of one of the two runs. -/
theorem runEndIsUnique : Obligations.RunEndIsUnique := by
  rintro s t t' ⟨n, hn⟩ ⟨m, hm⟩
  exact runFuel_unique hn hm

/-- A running core whose step leads back to the same state runs for ever. -/
theorem runFuel_of_step_self (hr : s.running = true) (h : step s = .next s) (n : Nat) : runFuel n s = none := by
  induction n with
  | zero => exact runFuel_zero_running hr
  | succ n ih => rw [runFuel_succ_running hr h, ih]

/-- Settles O45: the jump's step leads back to the same state. -/
theorem jumpToItselfNeverEnds : Obligations.JumpToItselfNeverEnds := by
  intro s r hr hpc hop ha hreg
  have hfetch : fetchDecode s = .ok (.jmp (regByte r)) :=
    fetchDecode_eq_ok_iff.mpr (State.holds_of_bytes (rest := [s.memRead (s.pc + 2)]) (Nat.succ_le_succ hpc)
      (by rw [hop, ha]; rfl))
  have hself : step s = .next s := by
    rw [step_ok hr hfetch, execJmp_next, hreg]
    rfl
  have hnone := runFuel_of_step_self hr hself
  refine ⟨hnone, fun ⟨t, n, hn⟩ => ?_⟩
  rw [hnone n] at hn
  cases hn

end Sys2Proof.Machine
end
